-- ==== Sys2Proof/Word.lean ====
section
/-! DEFINITION. The units of the machine: the 16-bit Word (00_scope.md R10, R13), the byte of the
character ports (10_state.md R34) and the 3-bit register number (10_state.md R21). -/

namespace Sys2Proof

/-- A Word: the unit of memory, registers and instructions (00_scope.md R13). Its `+`, `-` and
`~~~` are taken modulo 2^16, as R10 asks. -/
abbrev Word := BitVec 16

/-- A character on the host's ports (10_state.md R34). -/
abbrev Byte := BitVec 8

/-- The number of a general register, R0 to R7: a 3-bit instruction field (10_state.md R21). -/
abbrev RegNum := BitVec 3

end Sys2Proof
end

