-- ==== Sys2Proof/Config.lean ====
section
/-! DEFINITION. What an implementation fixes: the named parameters of 00_scope.md R8, as one record
of plain data, and the one free value of the machine, the answer of a keyboard poll
(20_memory.md R47). The parameters' default values stand in Machine/Defaults.lean. -/

namespace Sys2Proof

/-- The sixteen roles an opcode value can have: the 14 defined opcodes, in the order of
30_encoding.md R65, and the two reserved ones (R70), named after their default values. -/
inductive Opcode where
  | br | add | ld | st | jsr | and | ldr | str
  | reserved8 | not | ldi | sti | jmp | reservedD | lea | trap
deriving DecidableEq, Repr

/-- Every role once. -/
def Opcode.all : List Opcode :=
  [.br, .add, .ld, .st, .jsr, .and, .ldr, .str,
   .reserved8, .not, .ldi, .sti, .jmp, .reservedD, .lea, .trap]

/-- TRAP_VECTORS: the vector of each native service (00_scope.md R8, 43_trap.md R140). -/
structure TrapVectors where
  getc  : BitVec 8
  out   : BitVec 8
  puts  : BitVec 8
  inp   : BitVec 8
  putsp : BitVec 8
  halt  : BitVec 8
deriving DecidableEq, Repr

/-- The six vectors in the spec's order. -/
def TrapVectors.toList (v : TrapVectors) : List (BitVec 8) :=
  [v.getc, v.out, v.puts, v.inp, v.putsp, v.halt]

/-- COND_ENC: the Word that stands for each condition flag (00_scope.md R8, 10_state.md R26). -/
structure CondEnc where
  p : Word
  z : Word
  n : Word
deriving DecidableEq, Repr

/-- UNDEFINED_TRAP_POLICY (00_scope.md R8, 43_trap.md R147). -/
inductive TrapPolicy where
  | fault
  | nop
deriving DecidableEq, Repr

/-- The named parameters of 00_scope.md R8. "The model takes each one as an argument": the record
stands in the state, no step changes it, and a claim about every state is a claim about every value
of every parameter. DESIGN CHOICE, log entry 1; safe. -/
structure Params where
  /-- START_PC, the address of the first fetch (70_reset_and_hazards.md R181). -/
  startPc : Word
  /-- KBSR_ADDR, the keyboard status register's address (20_memory.md R43). -/
  kbsrAddr : Word
  /-- KBDR_ADDR, the keyboard data register's address: "A model keeps both addresses as parameters"
  (20_memory.md R43, 90_conflicts.md C6). -/
  kbdrAddr : Word
  /-- KBSR_READY, what a successful poll leaves in the status cell (20_memory.md R44). -/
  kbsrReady : Word
  /-- OPCODE_MAP: the role of each of the sixteen opcode values (30_encoding.md R65). -/
  opcodes : Vector Opcode 16
  /-- TRAP_VECTORS (43_trap.md R140). -/
  trapVectors : TrapVectors
  /-- COND_ENC (10_state.md R26). -/
  condEnc : CondEnc
  /-- UNDEFINED_TRAP_POLICY (43_trap.md R147). -/
  undefinedTrapPolicy : TrapPolicy
  /-- TRAP_WRITES_R7 (43_trap.md R148). -/
  trapWritesR7 : Bool
  /-- JSRR_BASE_FIRST (42_control.md R133). -/
  jsrrBaseFirst : Bool
  /-- IN_PROMPT (43_trap.md R144). -/
  inPrompt : List Byte
  /-- HALT_NOTICE (43_trap.md R146). -/
  haltNotice : List Byte
deriving DecidableEq, Repr

/-- The free value: whether the n-th keyboard poll of a run finds that the first pending character
has arrived. 20_memory.md R47: "Whether `InPoll()` returns a character is host timing, and the model
leaves it open." It has no body: no proof can lean on an answer. Log entry 4; safe. -/
opaque Config.pollArrives : Nat → Bool

end Sys2Proof
end

