-- ==== Sys2Proof/Machine/Defaults.lean ====
section
/-! DEFINITION. The default value of every named parameter (00_scope.md R8). Each value marked there
"from general knowledge, not in source" is the spec's own decision: log entries 15 to 24. -/

namespace Sys2Proof.Machine

/-- The default OPCODE_MAP, the table of 30_encoding.md R65: entry v is the role of opcode value v. -/
def defaultOpcodes : Vector Opcode 16 :=
  #v[.br, .add, .ld, .st, .jsr, .and, .ldr, .str,
     .reserved8, .not, .ldi, .sti, .jmp, .reservedD, .lea, .trap]

/-- The default TRAP_VECTORS (00_scope.md R8, 43_trap.md R140). -/
def defaultVectors : TrapVectors :=
  { getc := 0x20, out := 0x21, puts := 0x22, inp := 0x23, putsp := 0x24, halt := 0x25 }

/-- The default COND_ENC (10_state.md R26). -/
def defaultCondEnc : CondEnc := { p := 0x0001, z := 0x0002, n := 0x0004 }

/-- The default IN_PROMPT, the bytes of "Enter a character: " (43_trap.md R144). -/
def defaultPrompt : List Byte :=
  [0x45, 0x6E, 0x74, 0x65, 0x72, 0x20, 0x61, 0x20, 0x63, 0x68, 0x61, 0x72, 0x61, 0x63,
   0x74, 0x65, 0x72, 0x3A, 0x20]

/-- The default HALT_NOTICE, the bytes of "HALT" and a line feed (43_trap.md R146). -/
def defaultNotice : List Byte := [0x48, 0x41, 0x4C, 0x54, 0x0A]

/-- The default KBSR_ADDR (20_memory.md R43). -/
def defaultKbsrAddr : Word := 0xFE00

/-- The default KBDR_ADDR: "the immediately following address" (20_memory.md R43, 00_scope.md R8). -/
def defaultKbdrAddr : Word := defaultKbsrAddr + 1

/-- Every parameter at its default (00_scope.md R8). -/
def defaultParams : Params :=
  { startPc := 0x3000
    kbsrAddr := defaultKbsrAddr
    kbdrAddr := defaultKbdrAddr
    kbsrReady := 0x8000
    opcodes := defaultOpcodes
    trapVectors := defaultVectors
    condEnc := defaultCondEnc
    undefinedTrapPolicy := .fault
    trapWritesR7 := false
    jsrrBaseFirst := false
    inPrompt := defaultPrompt
    haltNotice := defaultNotice }

end Sys2Proof.Machine
end

