-- ==== Sys2Proof/Syntax.lean ====
section
/-! DEFINITION. The instructions: one constructor per row of spec/opcode_table.json, in the table's
order, with the operand fields of 30_encoding.md R62. -/

namespace Sys2Proof

/-- One instruction. A field the instruction ignores (30_encoding.md R69) is not kept, except where a
fault records the whole instruction Word (60_exceptions.md R160, R161): log entry 10. -/
inductive Instr where
  /-- BR: condition mask [11:9] (n, z, p from the high bit down) and pcoffset9 (42_control.md R130). -/
  | br (nzp : BitVec 3) (pcoffset9 : BitVec 9)
  /-- ADD, register mode (40_operate.md R100). -/
  | addReg (dr sr1 sr2 : RegNum)
  /-- ADD, immediate mode (40_operate.md R101). -/
  | addImm (dr sr1 : RegNum) (imm5 : BitVec 5)
  /-- LD (41_load_store.md R110). -/
  | ld (dr : RegNum) (pcoffset9 : BitVec 9)
  /-- ST (41_load_store.md R114). -/
  | st (sr : RegNum) (pcoffset9 : BitVec 9)
  /-- JSRR (42_control.md R133). -/
  | jsrr (baseR : RegNum)
  /-- JSR (42_control.md R132). -/
  | jsr (pcoffset11 : BitVec 11)
  /-- AND, register mode (40_operate.md R102). -/
  | andReg (dr sr1 sr2 : RegNum)
  /-- AND, immediate mode (40_operate.md R103). -/
  | andImm (dr sr1 : RegNum) (imm5 : BitVec 5)
  /-- LDR (41_load_store.md R112). -/
  | ldr (dr baseR : RegNum) (offset6 : BitVec 6)
  /-- STR (41_load_store.md R116). -/
  | str (sr baseR : RegNum) (offset6 : BitVec 6)
  /-- The first reserved opcode with its other twelve bits (60_exceptions.md R160). -/
  | reserved8 (ignored : BitVec 12)
  /-- NOT (40_operate.md R104). -/
  | not (dr sr : RegNum)
  /-- LDI (41_load_store.md R111). -/
  | ldi (dr : RegNum) (pcoffset9 : BitVec 9)
  /-- STI (41_load_store.md R115). -/
  | sti (sr : RegNum) (pcoffset9 : BitVec 9)
  /-- JMP, with RET as JMP R7 (42_control.md R131). -/
  | jmp (baseR : RegNum)
  /-- The second reserved opcode with its other twelve bits (60_exceptions.md R160). -/
  | reservedD (ignored : BitVec 12)
  /-- LEA (41_load_store.md R113). -/
  | lea (dr : RegNum) (pcoffset9 : BitVec 9)
  /-- TRAP GETC (43_trap.md R141). -/
  | trapGetc
  /-- TRAP OUT (43_trap.md R142). -/
  | trapOut
  /-- TRAP PUTS (43_trap.md R143). -/
  | trapPuts
  /-- TRAP IN (43_trap.md R144). -/
  | trapIn
  /-- TRAP PUTSP (43_trap.md R145). -/
  | trapPutsp
  /-- TRAP HALT (43_trap.md R146). -/
  | trapHalt
  /-- TRAP, the generic row: ignored bits [11:8] and the vector (43_trap.md R140, R147). -/
  | trap (ignored : BitVec 4) (trapvect8 : BitVec 8)
deriving DecidableEq, Repr

end Sys2Proof
end

