-- ==== Sys2Proof/WellFormed.lean ====
section
/-! DEFINITION. Which parameter records and which instructions are well formed. The widths of an
instruction's fields are in its type, so the one check left on an instruction is that the generic TRAP
does not stand for a defined service (30_encoding.md R78). -/

namespace Sys2Proof

/-- Is the vector one of the six defined ones (43_trap.md R140)? -/
def TrapVectors.isDefined (t : TrapVectors) (v : BitVec 8) : Bool :=
  t.toList.contains v

/-- OPCODE_MAP gives every role to exactly one value, ADD to 1 and TRAP to 15, the two the source fixes
(00_scope.md R7, 30_encoding.md R65). -/
def opcodesWf (m : Vector Opcode 16) : Bool :=
  Opcode.all.all (fun o => m.toList.contains o) && decide m.toList.Nodup &&
    m[1] == .add && m[15] == .trap

/-- The six vectors differ and HALT is 0x25, the one the source fixes (00_scope.md R7). -/
def TrapVectors.wf (t : TrapVectors) : Bool :=
  decide t.toList.Nodup && t.halt == 0x25

/-- "each flag value must be a distinct single bit" (10_state.md R26). -/
def CondEnc.wf (e : CondEnc) : Bool :=
  [e.p, e.z, e.n].all (fun v => (List.range 16).any (fun i => v == BitVec.twoPow 16 i)) &&
    decide [e.p, e.z, e.n].Nodup

/-- The limits the spec sets on the parameters. KBSR_READY has its high bit set (20_memory.md R44), and
the two device registers stand at two addresses (R43). That the second follows the first is the default
and no limit: log entry 24. -/
def Params.wf (p : Params) : Bool :=
  opcodesWf p.opcodes && p.trapVectors.wf && p.condEnc.wf && p.kbsrReady.msb &&
    p.kbdrAddr != p.kbsrAddr

/-- A well-formed instruction: the generic TRAP carries an undefined vector, for a defined one is the
service's own row (30_encoding.md R78). -/
def Instr.wf (p : Params) : Instr → Bool
  | .trap _ v => !p.trapVectors.isDefined v
  | .br _ _ | .addReg _ _ _ | .addImm _ _ _ | .ld _ _ | .st _ _ | .jsrr _ | .jsr _
  | .andReg _ _ _ | .andImm _ _ _ | .ldr _ _ _ | .str _ _ _ | .reserved8 _ | .not _ _
  | .ldi _ _ | .sti _ _ | .jmp _ | .reservedD _ | .lea _ _ | .trapGetc | .trapOut
  | .trapPuts | .trapIn | .trapPutsp | .trapHalt => true

end Sys2Proof
end

