-- ==== Sys2Proof/Decode.lean ====
section
/-! DEFINITION. Decoding, total on every Word (30_encoding.md R75), and the encoder from the same
formats (R66). There is nothing to reject: a reserved opcode and an undefined trap vector decode to
constructors of their own, whose meanings raise the fault. -/

namespace Sys2Proof

/-- The field of `n` bits of an instruction Word whose lowest bit is bit `lo` (00_scope.md R9). -/
def bitField (w : Word) (lo n : Nat) : BitVec n := w.extractLsb' lo n

/-- The role of an opcode value under OPCODE_MAP (30_encoding.md R65). -/
def opcodeAt (p : Params) (v : BitVec 4) : Opcode := p.opcodes[v.toNat]'v.isLt

/-- The opcode value of a role under OPCODE_MAP: the first value with that role. -/
def opcodeValue (p : Params) (o : Opcode) : BitVec 4 := BitVec.ofNat 4 (p.opcodes.toList.idxOf o)

/-- Opcode ADD or AND: bit 5 = 1 selects imm5, bit 5 = 0 selects SR2 (30_encoding.md R67). -/
def decodeOperate (w : Word) (reg : RegNum → RegNum → RegNum → Instr)
    (imm : RegNum → RegNum → BitVec 5 → Instr) : Instr :=
  if bitField w 5 1 = 1 then imm (bitField w 9 3) (bitField w 6 3) (bitField w 0 5)
  else reg (bitField w 9 3) (bitField w 6 3) (bitField w 0 3)

/-- Opcode TRAP: the six service rows first, then the generic row (30_encoding.md R78). -/
def decodeTrap (t : TrapVectors) (w : Word) : Instr :=
  if bitField w 0 8 = t.getc then .trapGetc
  else if bitField w 0 8 = t.out then .trapOut
  else if bitField w 0 8 = t.puts then .trapPuts
  else if bitField w 0 8 = t.inp then .trapIn
  else if bitField w 0 8 = t.putsp then .trapPutsp
  else if bitField w 0 8 = t.halt then .trapHalt
  else .trap (bitField w 8 4) (bitField w 0 8)

/-- The instruction a Word decodes to (30_encoding.md R61, R62, R72). Bits that no field covers are
not looked at (R69). -/
def decode (p : Params) (w : Word) : Instr :=
  match opcodeAt p (bitField w 12 4) with
  | .br => .br (bitField w 9 3) (bitField w 0 9)
  | .add => decodeOperate w .addReg .addImm
  | .ld => .ld (bitField w 9 3) (bitField w 0 9)
  | .st => .st (bitField w 9 3) (bitField w 0 9)
  | .jsr => if bitField w 11 1 = 1 then .jsr (bitField w 0 11) else .jsrr (bitField w 6 3)
  | .and => decodeOperate w .andReg .andImm
  | .ldr => .ldr (bitField w 9 3) (bitField w 6 3) (bitField w 0 6)
  | .str => .str (bitField w 9 3) (bitField w 6 3) (bitField w 0 6)
  | .reserved8 => .reserved8 (bitField w 0 12)
  | .not => .not (bitField w 9 3) (bitField w 6 3)
  | .ldi => .ldi (bitField w 9 3) (bitField w 0 9)
  | .sti => .sti (bitField w 9 3) (bitField w 0 9)
  | .jmp => .jmp (bitField w 6 3)
  | .reservedD => .reservedD (bitField w 0 12)
  | .lea => .lea (bitField w 9 3) (bitField w 0 9)
  | .trap => decodeTrap p.trapVectors w

/-- The opcode role of an instruction (30_encoding.md R65). -/
def Instr.opcode : Instr → Opcode
  | .br _ _ => .br
  | .addReg _ _ _ => .add
  | .addImm _ _ _ => .add
  | .ld _ _ => .ld
  | .st _ _ => .st
  | .jsrr _ => .jsr
  | .jsr _ => .jsr
  | .andReg _ _ _ => .and
  | .andImm _ _ _ => .and
  | .ldr _ _ _ => .ldr
  | .str _ _ _ => .str
  | .reserved8 _ => .reserved8
  | .not _ _ => .not
  | .ldi _ _ => .ldi
  | .sti _ _ => .sti
  | .jmp _ => .jmp
  | .reservedD _ => .reservedD
  | .lea _ _ => .lea
  | .trapGetc => .trap
  | .trapOut => .trap
  | .trapPuts => .trap
  | .trapIn => .trap
  | .trapPutsp => .trap
  | .trapHalt => .trap
  | .trap _ _ => .trap

/-- The low twelve bits of an instruction's canonical encoding (30_encoding.md R66): ignored bits are
0, except NOT's [5:0], which are 111111 (R69). -/
def encodeFields (p : Params) : Instr → BitVec 12
  | .br nzp off => nzp ++ off
  | .addReg dr sr1 sr2 => dr ++ sr1 ++ 0#1 ++ 0#2 ++ sr2
  | .addImm dr sr1 imm5 => dr ++ sr1 ++ 1#1 ++ imm5
  | .ld dr off => dr ++ off
  | .st sr off => sr ++ off
  | .jsrr baseR => 0#1 ++ 0#2 ++ baseR ++ 0#6
  | .jsr off => 1#1 ++ off
  | .andReg dr sr1 sr2 => dr ++ sr1 ++ 0#1 ++ 0#2 ++ sr2
  | .andImm dr sr1 imm5 => dr ++ sr1 ++ 1#1 ++ imm5
  | .ldr dr baseR off => dr ++ baseR ++ off
  | .str sr baseR off => sr ++ baseR ++ off
  | .reserved8 ignored => ignored
  | .not dr sr => dr ++ sr ++ 0b111111#6
  | .ldi dr off => dr ++ off
  | .sti sr off => sr ++ off
  | .jmp baseR => 0#3 ++ baseR ++ 0#6
  | .reservedD ignored => ignored
  | .lea dr off => dr ++ off
  | .trapGetc => 0#4 ++ p.trapVectors.getc
  | .trapOut => 0#4 ++ p.trapVectors.out
  | .trapPuts => 0#4 ++ p.trapVectors.puts
  | .trapIn => 0#4 ++ p.trapVectors.inp
  | .trapPutsp => 0#4 ++ p.trapVectors.putsp
  | .trapHalt => 0#4 ++ p.trapVectors.halt
  | .trap ignored v => ignored ++ v

/-- The canonical encoding: the opcode value in [15:12], then the fields. -/
def encode (p : Params) (i : Instr) : Word := opcodeValue p i.opcode ++ encodeFields p i

/-- The Word of an instruction whose low `nbits` bits are `w` and whose other bits are 0. -/
def tableWord (nbits w : Nat) : Word := BitVec.ofNat 16 (w % 2 ^ nbits)

/-- The decoder on a row of the opcode table, under the default parameters. Every instruction is
16 bits (30_encoding.md R60), so a longer one is none of this machine's. -/
def decodeTableWord (nbits w : Nat) : Option Instr :=
  if nbits ≤ 16 then some (decode Machine.defaultParams (tableWord nbits w)) else none

end Sys2Proof
end

