-- ==== Sys2Proof/Machine/Memory.lean ====
section
/-! DEFINITION. Memory as plain data: one array of 65536 Words (20_memory.md R40), each Word held as
two cells of Host.Cell. The Word at address a is the byte at key 2a (its high byte) followed by the
byte at key 2a + 1 (its low byte). No rule names a byte of memory, so no instruction can observe the
layout (R50): DESIGN CHOICE, log entry 3; safe. -/

namespace Sys2Proof.Machine

/-- A memory: the cells that differ from what an unlisted cell reads as, keys strictly rising. -/
abbrev Memory := List Host.Cell

/-- What an unlisted cell reads as: memory is "zero-initialized" (10_state.md R35). -/
def unlistedByte : Byte := 0x00

/-- The canonical form: keys strictly rising, none outside the 65536 Words, no entry equal to what an
unlisted cell reads as. -/
abbrev Memory.wf (m : Memory) : Prop :=
  m.Pairwise (fun x y => x.1 < y.1) ∧ ∀ c ∈ m, c.1 < 2 * 65536 ∧ c.2 ≠ unlistedByte

/-- The byte at a key. -/
def byteAt : Memory → Nat → Byte
  | [], _ => unlistedByte
  | c :: rest, k => if c.1 = k then c.2 else byteAt rest k

/-- Put a cell before the first cell with a larger key. -/
def insertCell (k : Nat) (v : Byte) : Memory → Memory
  | [] => [(k, v)]
  | c :: rest => if k < c.1 then (k, v) :: c :: rest else c :: insertCell k v rest

/-- Write the byte at a key. Writing what an unlisted cell reads as removes the entry. -/
def setByte (m : Memory) (k : Nat) (v : Byte) : Memory :=
  if v = unlistedByte then m.filter (fun c => c.1 != k)
  else insertCell k v (m.filter (fun c => c.1 != k))

/-- The Word at an address. -/
def readWord (m : Memory) (a : Word) : Word :=
  byteAt m (2 * a.toNat) ++ byteAt m (2 * a.toNat + 1)

/-- Write the Word at an address. -/
def writeWord (m : Memory) (a v : Word) : Memory :=
  setByte (setByte m (2 * a.toNat) (v.extractLsb' 8 8)) (2 * a.toNat + 1) (v.extractLsb' 0 8)

end Sys2Proof.Machine
end

