-- ==== Sys2Proof/Machine/State.lean ====
section
/-! DEFINITION. The state of the machine (10_state.md R20), the ways a step can stop, and the state
after reset (R35, 70_reset_and_hazards.md R180). -/

namespace Sys2Proof.Machine

/-- The run state (10_state.md R31). Faulted is no state the machine can continue from: it is the
fault outcome of a step. -/
inductive RunState where
  | running
  | halted
deriving DecidableEq, Repr

/-- The state tuple of 10_state.md R20, then three fields of the model's own: the parameters (log
entry 1) and the two that answer keyboard polls (log entry 4). -/
structure State where
  /-- `x[0..7]`, the general registers (R21). -/
  regs : Vector Word 8
  /-- The program counter (R24). -/
  pc : Word
  /-- The condition-flag register, one of the three COND_ENC values (R26). -/
  cond : Word
  /-- Running or Halted (R31). -/
  run : RunState
  /-- `mem[0..65535]`, the two device cells among them (20_memory.md R40, R43). -/
  mem : Memory
  /-- The input source: the host's characters not yet consumed, the first one first (R32). -/
  input : List Byte
  /-- The output sink: the bytes written so far, the first one first (R32). -/
  output : List Byte
  /-- The named parameters (00_scope.md R8); the model's own field. -/
  params : Params
  /-- The host's answers to the coming polls, as far as they are fixed (20_memory.md R47); the
  model's own field. -/
  draws : List Bool
  /-- How many polls have taken place; the model's own field. -/
  polls : Nat
deriving DecidableEq, Repr

/-- Why a step has no next state although the machine was running. Each carries the state in which the
machine stopped, so that what the stopped instruction has done can be read
(60_exceptions.md R164): log entry 7. -/
inductive Fault where
  /-- Raised by the two reserved opcodes (60_exceptions.md R160), model cause code 1: the instruction's
  address, its Word, and the state at the fault. Safe: the spec says the run ends here (R163). -/
  | illegalOpcode (address instr : Word) (final : State)
  /-- Raised by TRAP with an undefined vector when UNDEFINED_TRAP_POLICY = fault (R161), model cause
  code 2: the vector, the instruction's address, its Word, and the state at the fault. Safe: the run
  has no successful end (92_eei_decisions.md D11). -/
  | illegalTrap (vector : BitVec 8) (address instr : Word) (final : State)
  /-- Raised by GETC and IN when the input source holds no character (R175): the run is stuck, "neither
  Halted nor Faulted". The state is the one in which the step holds. Safe: a stuck run has no
  successful end (92_eei_decisions.md D15). Log entry 6. -/
  | waitingForInput (held : State)
deriving DecidableEq, Repr

/-- Why a step is refused. -/
inductive Refusal where
  /-- An instruction without a meaning; no arm of exec is left with it. Safe. -/
  | notModelled (mnemonic : String)
  /-- Raised by step in a Halted machine: "Halted: no step" (30_encoding.md R72). Safe: the spec gives
  no step after HALT (60_exceptions.md R173). Log entry 8. -/
  | halted
deriving DecidableEq, Repr

/-- The state after reset, before any image is loaded, under given parameters: "zero-initialized"
registers and memory, `pc` = START_PC, COND = Z, run = Running, an empty output sink
(10_state.md R35, 70_reset_and_hazards.md R180). The input source is "not part of reset"; the model's
is empty (log entry 5), and no poll is answered in advance (log entry 4). -/
def State.resetWith (p : Params) : State :=
  { regs := Vector.replicate 8 0x0000
    pc := p.startPc
    cond := p.condEnc.z
    run := .running
    mem := []
    input := []
    output := []
    params := p
    draws := []
    polls := 0 }

/-- The state after reset under the default parameters. -/
def State.reset : State := State.resetWith defaultParams

end Sys2Proof.Machine
end

