-- ==== Sys2Proof/Machine/Ops.lean ====
section
/-! DEFINITION. The named operations over registers, memory and the ports: the pseudocode primitives of
00_scope.md R12, the address decoder and the keyboard poll (20_memory.md R42 to R49), the fetch
(30_encoding.md R72), and the raising of a fault (60_exceptions.md R163, R164). -/

namespace Sys2Proof.Machine

/-! ### Registers -/

/-- `x[r]` (10_state.md R21). -/
def State.reg (s : State) (r : RegNum) : Word := s.regs[r.toNat]'r.isLt

/-- `x[r] <- v`; COND is not touched (10_state.md R21). -/
def State.setReg (s : State) (r : RegNum) (v : Word) : State :=
  { s with regs := s.regs.set r.toNat v r.isLt }

/-- `pc <- v` (10_state.md R24). -/
def State.setPc (s : State) (v : Word) : State := { s with pc := v }

/-- R7, the link register (42_control.md R134). -/
def linkReg : RegNum := 7

/-! ### Memory -/

/-- `RawRead(a)`: the array element, with no poll at any address (20_memory.md R49). -/
def State.word (s : State) (a : Word) : Word := readWord s.mem a

/-- `MemWrite(a, 1, v)`: a plain store at every address (20_memory.md R48). -/
def State.store (s : State) (a v : Word) : State := { s with mem := writeWord s.mem a v }

/-- The classes of the address decoder (20_memory.md R42). -/
inductive AddrClass where
  | kbsr
  | kbdr
  | ram
deriving DecidableEq, Repr

/-- The address decoder (20_memory.md R42). -/
def classOf (p : Params) (a : Word) : AddrClass :=
  if a = p.kbsrAddr then .kbsr else if a = p.kbdrAddr then .kbdr else .ram

/-! ### The character ports (10_state.md R34) -/

/-- Does the coming poll find that the first pending character has arrived? The host's fixed answer
where there is one, else the free value (20_memory.md R47). -/
def State.nextDraw (s : State) : Bool :=
  match s.draws with
  | [] => Config.pollArrives s.polls
  | d :: _ => d

/-- Use up one answer. -/
def State.advanceDraws (s : State) : State :=
  { s with draws := s.draws.tail, polls := s.polls + 1 }

/-- The characters left in the input source. -/
def State.setInput (s : State) (rest : List Byte) : State := { s with input := rest }

/-- `InPoll()`: never blocks; none where nothing is pending, else none or the first pending character,
which is consumed (20_memory.md R46, R47). -/
def inPoll (s : State) : Option Byte × State :=
  match s.input with
  | [] => (none, s.advanceDraws)
  | c :: rest =>
    if s.nextDraw then (some c, s.advanceDraws.setInput rest)
    else (none, s.advanceDraws)

/-- `InGet()`: the first pending character, consumed; none while the input source has none to supply,
and then the step holds (43_trap.md R149, 60_exceptions.md R175). -/
def inGet (s : State) : Option (Byte × State) :=
  match s.input with
  | [] => none
  | c :: rest => some (c, s.setInput rest)

/-- `Out(b)` for each byte in order: appended to the output sink (10_state.md R32, R34). A flush has no
effect on the sequence. -/
def State.emit (s : State) (bs : List Byte) : State := { s with output := s.output ++ bs }

/-- The host supplies characters: they join the end of the input source (10_state.md R32). -/
def State.supply (s : State) (cs : List Byte) : State := { s with input := s.input ++ cs }

/-- `zext_n` (00_scope.md R11). -/
def zext {n : Nat} (v : BitVec n) : Word := v.setWidth 16

/-! ### Datapath reads -/

/-- `Poll()` (20_memory.md R46). -/
def poll (s : State) : State :=
  match inPoll s with
  | (some c, t) => (t.store t.params.kbsrAddr t.params.kbsrReady).store t.params.kbdrAddr (zext c)
  | (none, t) => t.store t.params.kbsrAddr 0x0000

/-- `MemRead(a, 1)`: the Word read, after the poll that a read of KBSR_ADDR makes, and the state it
leaves (20_memory.md R45). -/
def memRead (s : State) (a : Word) : Word × State :=
  match classOf s.params a with
  | .kbsr => ((poll s).word a, poll s)
  | .kbdr => (s.word a, s)
  | .ram => (s.word a, s)

/-- The fetch: one MemRead at `pc`, then `pc <- pc + 1` modulo 2^16 (30_encoding.md R60, R72). -/
def fetch (s : State) : Word × State :=
  ((memRead s s.pc).1, (memRead s s.pc).2.setPc (s.pc + 1))

/-! ### Run state and faults -/

/-- `halt`: run <- Halted (10_state.md R31). -/
def State.halt (s : State) : State := { s with run := .halted }

/-- Raising a fault: it ends the run, recording the instruction's address, which is `pc - 1` after the
fetch, its Word, and the state as the fetch left it; nothing is saved and no control is transferred
(60_exceptions.md R163, R164). There is no return from it (R167). -/
def raise (reason : Word → Word → State → Fault) (instr : Word) (s : State) :
    Host.Outcome State Fault Refusal :=
  .fault (reason (s.pc - 1) instr s)

/-- The model's cause codes (60_exceptions.md R162). A held step is no fault of the spec and has
none (R175). -/
def Fault.code : Fault → Option Nat
  | .illegalOpcode _ _ _ => some 1
  | .illegalTrap _ _ _ _ => some 2
  | .waitingForInput _ => none

end Sys2Proof.Machine
end

