-- ==== Sys2Proof/Machine/Flags.lean ====
section
/-! DEFINITION. The condition flags: `setcc` (10_state.md R27) and BR's test (42_control.md R130). -/

namespace Sys2Proof.Machine

/-- The COND value of a Word: Z for 0x0000, N where bit 15 is set, else P (10_state.md R27). -/
def condFor (e : CondEnc) (v : Word) : Word :=
  if v = 0x0000 then e.z else if v.msb then e.n else e.p

/-- `setcc(v)` (10_state.md R27). -/
def State.setcc (s : State) (v : Word) : State := { s with cond := condFor s.params.condEnc v }

/-- Write a destination register and set COND from the Word written: the writeback of every
instruction that sets flags (10_state.md R22, R27). -/
def State.writeback (s : State) (dr : RegNum) (v : Word) : State := (s.setReg dr v).setcc v

/-- The bits of COND that BR's condition mask selects: each mask bit stands for the flag of its own name,
n (instruction bit 11) for N, z (bit 10) for Z, p (bit 9) for P (10_state.md R26, 30_encoding.md R68).
Under the default COND_ENC it is `zext_3(cond)` (42_control.md R130). Log entry 18. -/
def branchMask (e : CondEnc) (nzp : BitVec 3) : Word :=
  (if nzp.getLsbD 2 then e.n else 0) ||| (if nzp.getLsbD 1 then e.z else 0) |||
    (if nzp.getLsbD 0 then e.p else 0)

/-- BR's test: do mask and COND have a common bit (42_control.md R130)? -/
def State.branchTaken (s : State) (nzp : BitVec 3) : Bool :=
  branchMask s.params.condEnc nzp &&& s.cond != 0

end Sys2Proof.Machine
end

