-- ==== Sys2Proof/Machine/Operands.lean ====
section
/-! DEFINITION. The operand forms: sign-extended immediates (30_encoding.md R63) and the effective
addresses of the three addressing modes (41_load_store.md R106). All sums are modulo 2^16. -/

namespace Sys2Proof.Machine

/-- `sext_n` (00_scope.md R11). -/
def sext {n : Nat} (v : BitVec n) : Word := v.signExtend 16

/-- PC-relative: the incremented `pc` plus the sign-extended offset (30_encoding.md R73,
41_load_store.md R106); pcoffset9 and pcoffset11. -/
def pcRelative {n : Nat} (s : State) (off : BitVec n) : Word := s.pc + sext off

/-- Base + offset (41_load_store.md R106). The base register is not modified. -/
def baseOffset (s : State) (baseR : RegNum) (off : BitVec 6) : Word := s.reg baseR + sext off

/-- Indirect: the pointer is a datapath read at the PC-relative address, and it polls where that is
KBSR_ADDR (41_load_store.md R106, R111, R115). -/
def indirect (s : State) (off : BitVec 9) : Word × State := memRead s (pcRelative s off)

end Sys2Proof.Machine
end

