-- ==== Sys2Proof/Machine/Control.lean ====
section
/-! DEFINITION. Control transfer (42_control.md). `pc` is the incremented PC; no delay slots, every Word
is a target (R134). -/

namespace Sys2Proof.Machine

/-- BR (42_control.md R130). -/
def execBr (nzp : BitVec 3) (off : BitVec 9) (s : State) : Host.Outcome State Fault Refusal :=
  .next (if s.branchTaken nzp then s.setPc (pcRelative s off) else s)

/-- JMP; RET is JMP R7 (42_control.md R131). -/
def execJmp (baseR : RegNum) (s : State) : Host.Outcome State Fault Refusal :=
  .next (s.setPc (s.reg baseR))

/-- JSR (42_control.md R132). -/
def execJsr (off : BitVec 11) (s : State) : Host.Outcome State Fault Refusal :=
  .next ((s.setReg linkReg s.pc).setPc (pcRelative s off))

/-- JSRR: BaseR is read after the write to R7, or before it where JSRR_BASE_FIRST is set
(42_control.md R133). -/
def execJsrr (baseR : RegNum) (s : State) : Host.Outcome State Fault Refusal :=
  .next
    (if s.params.jsrrBaseFirst then (s.setReg linkReg s.pc).setPc (s.reg baseR)
     else (s.setReg linkReg s.pc).setPc ((s.setReg linkReg s.pc).reg baseR))

end Sys2Proof.Machine
end

