-- ==== Sys2Proof/Machine/LoadStore.lean ====
section
/-! DEFINITION. Loads, LEA and stores (41_load_store.md). Every load is a MemRead, which polls at
KBSR_ADDR; every store is plain; no access faults. -/

namespace Sys2Proof.Machine

/-- Load DR by a MemRead at `ea` and set COND from the loaded Word: what LD, LDI's second read and LDR
share (41_load_store.md R110, R111, R112). -/
def loadInto (dr : RegNum) (ea : Word) (s : State) : State :=
  (memRead s ea).2.writeback dr (memRead s ea).1

/-- LD (41_load_store.md R110). -/
def execLd (dr : RegNum) (off : BitVec 9) (s : State) : Host.Outcome State Fault Refusal :=
  .next (loadInto dr (pcRelative s off) s)

/-- LDI: the pointer read, then the value read (41_load_store.md R111). -/
def execLdi (dr : RegNum) (off : BitVec 9) (s : State) : Host.Outcome State Fault Refusal :=
  .next (loadInto dr (indirect s off).1 (indirect s off).2)

/-- LDR (41_load_store.md R112). -/
def execLdr (dr baseR : RegNum) (off : BitVec 6) (s : State) : Host.Outcome State Fault Refusal :=
  .next (loadInto dr (baseOffset s baseR off) s)

/-- LEA: no memory access, so no poll (41_load_store.md R113). -/
def execLea (dr : RegNum) (off : BitVec 9) (s : State) : Host.Outcome State Fault Refusal :=
  .next (s.writeback dr (pcRelative s off))

/-- ST (41_load_store.md R114). -/
def execSt (sr : RegNum) (off : BitVec 9) (s : State) : Host.Outcome State Fault Refusal :=
  .next (s.store (pcRelative s off) (s.reg sr))

/-- STI: the pointer read is a MemRead, the store is plain (41_load_store.md R115). -/
def execSti (sr : RegNum) (off : BitVec 9) (s : State) : Host.Outcome State Fault Refusal :=
  .next ((indirect s off).2.store (indirect s off).1 (s.reg sr))

/-- STR (41_load_store.md R116). -/
def execStr (sr baseR : RegNum) (off : BitVec 6) (s : State) : Host.Outcome State Fault Refusal :=
  .next (s.store (baseOffset s baseR off) (s.reg sr))

end Sys2Proof.Machine
end

