-- ==== Sys2Proof/Machine/Operate.lean ====
section
/-! DEFINITION. The operate instructions (40_operate.md). Sources are read before the destination is
written (30_encoding.md R64); the sum wraps modulo 2^16 (R105). -/

namespace Sys2Proof.Machine

/-- ADD, register mode (40_operate.md R100). -/
def execAddReg (dr sr1 sr2 : RegNum) (s : State) : Host.Outcome State Fault Refusal :=
  .next (s.writeback dr (s.reg sr1 + s.reg sr2))

/-- ADD, immediate mode (40_operate.md R101). -/
def execAddImm (dr sr1 : RegNum) (imm5 : BitVec 5) (s : State) : Host.Outcome State Fault Refusal :=
  .next (s.writeback dr (s.reg sr1 + sext imm5))

/-- AND, register mode (40_operate.md R102). -/
def execAndReg (dr sr1 sr2 : RegNum) (s : State) : Host.Outcome State Fault Refusal :=
  .next (s.writeback dr (s.reg sr1 &&& s.reg sr2))

/-- AND, immediate mode (40_operate.md R103). -/
def execAndImm (dr sr1 : RegNum) (imm5 : BitVec 5) (s : State) : Host.Outcome State Fault Refusal :=
  .next (s.writeback dr (s.reg sr1 &&& sext imm5))

/-- NOT (40_operate.md R104). -/
def execNot (dr sr : RegNum) (s : State) : Host.Outcome State Fault Refusal :=
  .next (s.writeback dr (~~~(s.reg sr)))

end Sys2Proof.Machine
end

