-- ==== Sys2Proof/Machine/Reserved.lean ====
section
/-! DEFINITION. The two reserved opcodes: "dispatching either is a fatal condition"
(30_encoding.md R70, 60_exceptions.md R160). -/

namespace Sys2Proof.Machine

/-- The reserved opcode 0x8, whatever its other twelve bits hold (60_exceptions.md R160). -/
def execReserved8 (ignored : BitVec 12) (s : State) : Host.Outcome State Fault Refusal :=
  raise .illegalOpcode (encode s.params (.reserved8 ignored)) s

/-- The reserved opcode 0xD, whatever its other twelve bits hold (60_exceptions.md R160). -/
def execReservedD (ignored : BitVec 12) (s : State) : Host.Outcome State Fault Refusal :=
  raise .illegalOpcode (encode s.params (.reservedD ignored)) s

end Sys2Proof.Machine
end

