-- ==== Sys2Proof/Machine/Trap.lean ====
section
/-! DEFINITION. TRAP and its native services (43_trap.md). A service completes inside the TRAP's own
step (R149); none but IN writes COND and none changes `pc` (R140). -/

namespace Sys2Proof.Machine

/-- What a defined vector does before its service: `x[7] <- pc` where TRAP_WRITES_R7 is set
(43_trap.md R140, R148). -/
def trapEntry (s : State) : State :=
  if s.params.trapWritesR7 then s.setReg linkReg s.pc else s

/-- The scan of PUTS and PUTSP from `a`: each Word up to the first zero Word, or up to 0xFFFF, is turned
into bytes (43_trap.md R143, R145). `fuel` bounds the Words read; 65536 is never too few. -/
def scanString (chars : Word → List Byte) (m : Memory) : Nat → Word → List Byte
  | 0, _ => []
  | fuel + 1, a =>
    if readWord m a = 0x0000 then []
    else chars (readWord m a) ++ (if a = 0xFFFF then [] else scanString chars m fuel (a + 1))

/-- The low byte of a Word, one character (43_trap.md R142, R143). -/
def lowByte (w : Word) : Byte := w.extractLsb' 0 8

/-- The high byte of a Word. -/
def highByte (w : Word) : Byte := w.extractLsb' 8 8

/-- PUTS: a Word holds one character, its low byte (43_trap.md R143). -/
def putsChars (w : Word) : List Byte := [lowByte w]

/-- PUTSP: the low byte always, then the high byte if it is not zero (43_trap.md R145). -/
def putspChars (w : Word) : List Byte :=
  lowByte w :: (if highByte w = 0 then [] else [highByte w])

/-- TRAP GETC (43_trap.md R141). -/
def execTrapGetc (s : State) : Host.Outcome State Fault Refusal :=
  match inGet (trapEntry s) with
  | none => .fault (.waitingForInput (trapEntry s))
  | some (c, t) => .next (t.setReg 0 (zext c))

/-- TRAP OUT (43_trap.md R142). -/
def execTrapOut (s : State) : Host.Outcome State Fault Refusal :=
  .next ((trapEntry s).emit [lowByte ((trapEntry s).reg 0)])

/-- TRAP PUTS (43_trap.md R143). -/
def execTrapPuts (s : State) : Host.Outcome State Fault Refusal :=
  .next ((trapEntry s).emit (scanString putsChars s.mem 65536 ((trapEntry s).reg 0)))

/-- TRAP IN: the prompt, then one character, echoed and put in R0, then the flags. The prompt is out
before the step holds (43_trap.md R144). -/
def execTrapIn (s : State) : Host.Outcome State Fault Refusal :=
  match inGet ((trapEntry s).emit s.params.inPrompt) with
  | none => .fault (.waitingForInput ((trapEntry s).emit s.params.inPrompt))
  | some (c, t) => .next ((t.emit [c]).writeback 0 (zext c))

/-- TRAP PUTSP (43_trap.md R145). -/
def execTrapPutsp (s : State) : Host.Outcome State Fault Refusal :=
  .next ((trapEntry s).emit (scanString putspChars s.mem 65536 ((trapEntry s).reg 0)))

/-- TRAP HALT: the notice, then run <- Halted (43_trap.md R146). -/
def execTrapHalt (s : State) : Host.Outcome State Fault Refusal :=
  .next ((trapEntry s).emit s.params.haltNotice).halt

/-- TRAP, the dispatch on the vector (43_trap.md R140), with R147 for an undefined one: IllegalTrap, or
nothing at all under UNDEFINED_TRAP_POLICY = nop. The decoder yields this row for undefined vectors
only (30_encoding.md R78); on a defined one it is the service itself (log entry 12). -/
def execTrap (ignored : BitVec 4) (v : BitVec 8) (s : State) : Host.Outcome State Fault Refusal :=
  if v = s.params.trapVectors.getc then execTrapGetc s
  else if v = s.params.trapVectors.out then execTrapOut s
  else if v = s.params.trapVectors.puts then execTrapPuts s
  else if v = s.params.trapVectors.inp then execTrapIn s
  else if v = s.params.trapVectors.putsp then execTrapPutsp s
  else if v = s.params.trapVectors.halt then execTrapHalt s
  else match s.params.undefinedTrapPolicy with
    | .fault => raise (.illegalTrap v) (encode s.params (.trap ignored v)) s
    | .nop => .next s

end Sys2Proof.Machine
end

