-- ==== Sys2Proof/Machine/Step.lean ====
section
/-! DEFINITION. The instruction cycle (30_encoding.md R72). -/

namespace Sys2Proof.Machine

/-- One step: fetch, increment, decode, dispatch, while Running; no step in Halted
(30_encoding.md R72, R74). -/
def step (s : State) : Host.Outcome State Fault Refusal :=
  match s.run with
  | .running => exec (decode s.params (fetch s).1) (fetch s).2
  | .halted => .refused .halted

/-- The state with an instruction stored where the next fetch reads it, and Running so that the fetch
takes place. It stands for the host's loading of a program (log entry 13). A fetch from KBSR_ADDR
executes its own poll's answer, whatever the cell holds (20_memory.md R53). -/
def State.withFetchWord (s : State) (nbits w : Nat) : State :=
  { s.store s.pc (tableWord nbits w) with run := .running }

end Sys2Proof.Machine
end

