-- ==== Sys2Proof/Machine/Loader.lean ====
section
/-! DEFINITION. The image loader and the start of a run (70_reset_and_hazards.md R180 to R186). The
loader works before the first step, through the load port (10_state.md R34). -/

namespace Sys2Proof.Machine

/-- What the host hands the loader: a stream that cannot be opened, or the stream's bytes
(70_reset_and_hazards.md R183, R185). -/
inductive ImageSource where
  | unopenable
  | bytes (b : List Byte)
deriving DecidableEq, Repr

/-- Why an image is not loaded (70_reset_and_hazards.md R185, 60_exceptions.md R174). -/
inductive LoadError where
  /-- The stream cannot be opened; the host decides what follows. Safe. -/
  | cannotOpen
  /-- The stream is shorter than 2 bytes and has no origin; the model starts no run from it. Safe. -/
  | noOrigin
deriving DecidableEq, Repr

/-- Place the payload's big-endian Words from address `a` on: Words above 0xFFFF are dropped and a last
odd byte is ignored (70_reset_and_hazards.md R184). -/
def placeWords : List Byte → Nat → Memory → Memory
  | hi :: lo :: rest, a, m =>
    if a < 65536 then placeWords rest (a + 1) (writeWord m (BitVec.ofNat 16 a) (hi ++ lo)) else m
  | [_], _, m => m
  | [], _, m => m

/-- `Load(b)`: a plain store of each Word, with no poll; registers and `pc` are untouched
(70_reset_and_hazards.md R184, R186). -/
def load (s : State) : ImageSource → Except LoadError State
  | .unopenable => .error .cannotOpen
  | .bytes (hi :: lo :: payload) =>
    .ok { s with mem := placeWords payload (hi ++ lo : Word).toNat s.mem }
  | .bytes _ => .error .noOrigin

/-- Load the images in the host's order, a later one over an earlier one (70_reset_and_hazards.md R186);
the first failure is reported. -/
def loadAll : List ImageSource → State → Except LoadError State
  | [], s => .ok s
  | i :: rest, s =>
    match load s i with
    | .ok t => loadAll rest t
    | .error e => .error e

/-- `Reset(images)` with the host's input source: the state before the first step
(70_reset_and_hazards.md R180). `draws` fixes as many poll answers as the host wants. -/
def boot (p : Params) (images : List ImageSource) (input : List Byte) (draws : List Bool) :
    Except LoadError State :=
  loadAll images { State.resetWith p with input := input, draws := draws }

end Sys2Proof.Machine
end

