-- ==== Sys2Proof/Safety.lean ====
section
/-! DEFINITION. What claims are stated with: the invariant of the state, the ways a run can go
(70_reset_and_hazards.md R188), the spec's tables of what an instruction writes, and what it leaves
unchanged. -/

namespace Sys2Proof.Machine

/-! ### The invariant -/

/-- COND holds one of the three flag values (10_state.md R26). -/
abbrev State.condLegal (s : State) : Prop :=
  s.cond = s.params.condEnc.n ∨ s.cond = s.params.condEnc.z ∨ s.cond = s.params.condEnc.p

/-- The invariant of every state where a step can happen: memory in its canonical form, COND one of the
three flag values (10_state.md R26, R35), parameters within the spec's limits (00_scope.md R7, R8). -/
abbrev State.Inv (s : State) : Prop := s.mem.wf ∧ s.condLegal ∧ s.params.wf = true

/-! ### The ways a run can go -/

/-- The state in which a stopped machine is left (60_exceptions.md R164, R175). -/
def Fault.state : Fault → State
  | .illegalOpcode _ _ t => t
  | .illegalTrap _ _ _ t => t
  | .waitingForInput t => t

/-- The run from `s` ends successfully in `t`: Halted is the only such end
(70_reset_and_hazards.md R188). -/
def endsHalted (s t : State) : Prop :=
  ∃ k, Host.Core.run Sys2Proof.core k s = .next t ∧ t.run = .halted

/-- The run from `s` stops without success: faulted, or stuck for want of input
(60_exceptions.md R163, R175). -/
def endsStopped (s : State) (f : Fault) : Prop :=
  ∃ k, Host.Core.run Sys2Proof.core k s = .fault f

/-! ### The spec's tables of what an instruction writes -/

/-- The general registers an instruction writes (10_state.md R22): DR of the operate instructions, the
loads and LEA; R7 of JSR and JSRR; R0 of GETC and IN; R7 of a service where TRAP_WRITES_R7 is set;
none of the others. -/
def registersWritten (p : Params) : Instr → List RegNum
  | .addReg dr _ _ | .addImm dr _ _ | .andReg dr _ _ | .andImm dr _ _ | .not dr _ => [dr]
  | .ld dr _ | .ldi dr _ | .ldr dr _ _ | .lea dr _ => [dr]
  | .jsr _ | .jsrr _ => [7]
  | .trapGetc | .trapIn => if p.trapWritesR7 then [0, 7] else [0]
  | .trapOut | .trapPuts | .trapPutsp | .trapHalt => if p.trapWritesR7 then [7] else []
  | .br _ _ | .jmp _ | .st _ _ | .sti _ _ | .str _ _ _ => []
  | .reserved8 _ | .reservedD _ | .trap _ _ => []

/-- The register whose written Word sets COND, where the instruction sets COND at all
(10_state.md R28). -/
def flagRegister : Instr → Option RegNum
  | .addReg dr _ _ | .addImm dr _ _ | .andReg dr _ _ | .andImm dr _ _ | .not dr _ => some dr
  | .ld dr _ | .ldi dr _ | .ldr dr _ _ | .lea dr _ => some dr
  | .trapIn => some 0
  | .jsr _ | .jsrr _ | .br _ _ | .jmp _ | .st _ _ | .sti _ _ | .str _ _ _ => none
  | .trapGetc | .trapOut | .trapPuts | .trapPutsp | .trapHalt => none
  | .reserved8 _ | .reservedD _ | .trap _ _ => none

/-- The instructions that overwrite `pc` (10_state.md R24). -/
def transfersControl : Instr → Bool
  | .br _ _ | .jmp _ | .jsr _ | .jsrr _ => true
  | _ => false

/-- The instructions that access memory through the datapath (41_load_store.md): the only ones that can
change it, by a store or by the poll of a read. -/
def accessesMemory : Instr → Bool
  | .ld _ _ | .ldi _ _ | .ldr _ _ _ | .st _ _ | .sti _ _ | .str _ _ _ => true
  | _ => false

/-! ### What stays the same -/

/-- Every Word of memory reads the same, the device cells among them. -/
def sameMemory (s t : State) : Prop := ∀ a : Word, t.word a = s.word a

/-- Every register but the listed ones reads the same. -/
def sameRegsBut (s t : State) (rs : List RegNum) : Prop := ∀ r : RegNum, r ∉ rs → t.reg r = s.reg r

/-- The input source, the poll answers and the output sink are untouched. -/
def samePorts (s t : State) : Prop :=
  t.input = s.input ∧ t.draws = s.draws ∧ t.polls = s.polls ∧ t.output = s.output

/-- The run state and the parameters are untouched. -/
def sameRun (s t : State) : Prop := t.run = s.run ∧ t.params = s.params

/-- The destination `dr` holds `v`, COND is the flag of `v`, and every other register is untouched. -/
def wroteFlagged (s t : State) (dr : RegNum) (v : Word) : Prop :=
  t.reg dr = v ∧ t.cond = condFor s.params.condEnc v ∧ sameRegsBut s t [dr]

/-- What a trap service does to the registers besides the listed ones: R7 holds `pc` where
TRAP_WRITES_R7 is set, and every other register is untouched (43_trap.md R148). -/
def trapRegs (s t : State) (rs : List RegNum) : Prop :=
  (s.params.trapWritesR7 = true → t.reg 7 = s.pc ∧ sameRegsBut s t (7 :: rs)) ∧
  (s.params.trapWritesR7 = false → sameRegsBut s t rs)

end Sys2Proof.Machine
end

