-- ==== Sys2Proof/Certificates/Slice0/Obligations.lean ====
section
/-! DEFINITION. The statements for the provers. Each docstring names the rules of spec/ it comes from.
A statement about an instruction speaks of exec on the state after the fetch, in which `pc` is the
incremented PC (30_encoding.md R73). Where it gives the instruction's format too, it names the opcode
value by its role, because OPCODE_MAP is a parameter (00_scope.md R8). -/

open Sys2Proof Sys2Proof.Machine

/-! ### Encoding and decoding -/

/-- The words of spec/95_test_vectors.md, one or more for each form, decode under the default
OPCODE_MAP and TRAP_VECTORS (log entries 15 and 16) to the instructions they are written for. -/
def Obligations.SpecVectorWordsDecode : Prop :=
  decodeTableWord 16 0x05FE = some (.br 0b010 0x1FE) ∧
  decodeTableWord 16 0x1642 = some (.addReg 3 1 2) ∧
  decodeTableWord 16 0x12B0 = some (.addImm 1 2 0x10) ∧
  decodeTableWord 16 0x2402 = some (.ld 2 2) ∧
  decodeTableWord 16 0x37FE = some (.st 3 0x1FE) ∧
  decodeTableWord 16 0x40C0 = some (.jsrr 3) ∧
  decodeTableWord 16 0x4805 = some (.jsr 5) ∧
  decodeTableWord 16 0x5401 = some (.andReg 2 0 1) ∧
  decodeTableWord 16 0x56FE = some (.andImm 3 3 0x1E) ∧
  decodeTableWord 16 0x68BF = some (.ldr 4 2 0x3F) ∧
  decodeTableWord 16 0x7280 = some (.str 1 2 0) ∧
  decodeTableWord 16 0x8000 = some (.reserved8 0) ∧
  decodeTableWord 16 0x997F = some (.not 4 5) ∧
  decodeTableWord 16 0xA001 = some (.ldi 0 1) ∧
  decodeTableWord 16 0xB200 = some (.sti 1 0) ∧
  decodeTableWord 16 0xC1C0 = some (.jmp 7) ∧
  decodeTableWord 16 0xD123 = some (.reservedD 0x123) ∧
  decodeTableWord 16 0xE001 = some (.lea 0 1) ∧
  decodeTableWord 16 0xF020 = some .trapGetc ∧
  decodeTableWord 16 0xF021 = some .trapOut ∧
  decodeTableWord 16 0xF022 = some .trapPuts ∧
  decodeTableWord 16 0xF023 = some .trapIn ∧
  decodeTableWord 16 0xF024 = some .trapPutsp ∧
  decodeTableWord 16 0xFF25 = some .trapHalt ∧
  decodeTableWord 16 0xF026 = some (.trap 0 0x26)

/-- Decoding the encoding of a well-formed instruction gives it back, for every value of every operand
and under every well-formed OPCODE_MAP and TRAP_VECTORS (30_encoding.md R65, R66, R78). -/
def Obligations.DecodeInvertsEncode : Prop :=
  ∀ (p : Params) (i : Instr), p.wf = true → i.wf p = true → decode p (encode p i) = i

/-- The decoder yields well-formed instructions only: the generic TRAP row for undefined vectors alone
(30_encoding.md R78); and it yields a reserved instruction for a reserved opcode alone (R70). -/
def Obligations.DecodeYieldsWellFormed : Prop :=
  ∀ (p : Params) (w : Word),
    (decode p w).wf p = true ∧ (decode p w).opcode = opcodeAt p (BitVec.ofNat 4 (w.toNat / 2 ^ 12))

/-- Every field stands at the bits of R62, read as an unsigned number (00_scope.md R9); the mode bit and
long_flag select as R62 says. -/
def Obligations.FieldsStandAtTheirBits : Prop :=
  ∀ (p : Params) (w : Word),
    match decode p w with
    | .br nzp off => nzp.toNat = w.toNat / 2 ^ 9 % 2 ^ 3 ∧ off.toNat = w.toNat % 2 ^ 9
    | .addReg dr sr1 sr2 | .andReg dr sr1 sr2 =>
      w.toNat / 2 ^ 5 % 2 = 0 ∧ dr.toNat = w.toNat / 2 ^ 9 % 2 ^ 3 ∧
      sr1.toNat = w.toNat / 2 ^ 6 % 2 ^ 3 ∧ sr2.toNat = w.toNat % 2 ^ 3
    | .addImm dr sr1 imm5 | .andImm dr sr1 imm5 =>
      w.toNat / 2 ^ 5 % 2 = 1 ∧ dr.toNat = w.toNat / 2 ^ 9 % 2 ^ 3 ∧
      sr1.toNat = w.toNat / 2 ^ 6 % 2 ^ 3 ∧ imm5.toNat = w.toNat % 2 ^ 5
    | .ld r off | .st r off | .ldi r off | .sti r off | .lea r off =>
      r.toNat = w.toNat / 2 ^ 9 % 2 ^ 3 ∧ off.toNat = w.toNat % 2 ^ 9
    | .jsrr baseR => w.toNat / 2 ^ 11 % 2 = 0 ∧ baseR.toNat = w.toNat / 2 ^ 6 % 2 ^ 3
    | .jsr off => w.toNat / 2 ^ 11 % 2 = 1 ∧ off.toNat = w.toNat % 2 ^ 11
    | .ldr r baseR off | .str r baseR off =>
      r.toNat = w.toNat / 2 ^ 9 % 2 ^ 3 ∧ baseR.toNat = w.toNat / 2 ^ 6 % 2 ^ 3 ∧
      off.toNat = w.toNat % 2 ^ 6
    | .not dr sr => dr.toNat = w.toNat / 2 ^ 9 % 2 ^ 3 ∧ sr.toNat = w.toNat / 2 ^ 6 % 2 ^ 3
    | .jmp baseR => baseR.toNat = w.toNat / 2 ^ 6 % 2 ^ 3
    | .reserved8 ignored | .reservedD ignored => ignored.toNat = w.toNat % 2 ^ 12
    | .trapGetc => p.trapVectors.getc.toNat = w.toNat % 2 ^ 8
    | .trapOut => p.trapVectors.out.toNat = w.toNat % 2 ^ 8
    | .trapPuts => p.trapVectors.puts.toNat = w.toNat % 2 ^ 8
    | .trapIn => p.trapVectors.inp.toNat = w.toNat % 2 ^ 8
    | .trapPutsp => p.trapVectors.putsp.toNat = w.toNat % 2 ^ 8
    | .trapHalt => p.trapVectors.halt.toNat = w.toNat % 2 ^ 8
    | .trap ignored v => ignored.toNat = w.toNat / 2 ^ 8 % 2 ^ 4 ∧ v.toNat = w.toNat % 2 ^ 8

/-- The bits that no field covers may hold any value (30_encoding.md R69; the spec marks it as its own
decision D10, log entry 25). -/
def Obligations.IgnoredBitsChangeNothing : Prop :=
  ∀ (p : Params) (o : BitVec 4),
    (opcodeAt p o = .add → ∀ (dr sr1 sr2 : RegNum) (x : BitVec 2),
      decode p (o ++ dr ++ sr1 ++ 0#1 ++ x ++ sr2) = .addReg dr sr1 sr2) ∧
    (opcodeAt p o = .and → ∀ (dr sr1 sr2 : RegNum) (x : BitVec 2),
      decode p (o ++ dr ++ sr1 ++ 0#1 ++ x ++ sr2) = .andReg dr sr1 sr2) ∧
    (opcodeAt p o = .jsr → ∀ (baseR : RegNum) (x : BitVec 2) (y : BitVec 6),
      decode p (o ++ 0#1 ++ x ++ baseR ++ y) = .jsrr baseR) ∧
    (opcodeAt p o = .not → ∀ (dr sr : RegNum) (y : BitVec 6),
      decode p (o ++ dr ++ sr ++ y) = .not dr sr) ∧
    (opcodeAt p o = .jmp → ∀ (baseR : RegNum) (x : BitVec 3) (y : BitVec 6),
      decode p (o ++ x ++ baseR ++ y) = .jmp baseR) ∧
    (opcodeAt p o = .trap → ∀ (x : BitVec 4) (v : BitVec 8), p.trapVectors.isDefined v = true →
      decode p (o ++ x ++ v) = decode p (o ++ 0#4 ++ v))

/-! ### The machine as a whole -/

/-- The values reset leaves before any image is loaded, for every parameter record, and the default
START_PC (10_state.md R35, 70_reset_and_hazards.md R180; the default START_PC and the empty output are
the spec's decisions D21 and D29, log entries 24 and 26). -/
def Obligations.ResetValues : Prop :=
  (∀ p : Params,
    (∀ r, (State.resetWith p).reg r = 0x0000) ∧ (∀ a, (State.resetWith p).word a = 0x0000) ∧
    (State.resetWith p).pc = p.startPc ∧ (State.resetWith p).cond = p.condEnc.z ∧
    (State.resetWith p).run = .running ∧ (State.resetWith p).output = [] ∧
    (State.resetWith p).params = p) ∧
  State.reset = State.resetWith defaultParams ∧ State.reset.pc = 0x3000

/-- The invariant holds after reset, for every parameter record within the spec's limits, the default
one among them. -/
def Obligations.ResetMeetsInvariant : Prop :=
  (∀ p : Params, p.wf = true → (State.resetWith p).Inv) ∧ State.reset.Inv

/-- Every step keeps the invariant, from every state that meets it: memory canonical, COND one of
exactly three flag values (10_state.md R26), parameters within their limits. -/
def Obligations.StepKeepsInvariant : Prop :=
  ∀ s t : State, s.Inv → step s = .next t → t.Inv

/-- A machine that stops is left in a state that meets the invariant (60_exceptions.md R164, R175; that
a stop carries its state is the model's choice, log entry 7). -/
def Obligations.StopKeepsInvariant : Prop :=
  ∀ (s : State) (f : Fault), s.Inv → step s = .fault f → f.state.Inv

/-- A step runs the decoded instruction: the fetched Word, decoded, executes on the state with `pc`
incremented. Away from KBSR_ADDR the Word is memory's and nothing else has changed; at KBSR_ADDR the
fetch is a datapath read like any other (30_encoding.md R72, 20_memory.md R45). -/
def Obligations.StepRunsDecodedInstruction : Prop :=
  ∀ s : State, s.run = .running →
    (s.pc ≠ s.params.kbsrAddr →
      step s = exec (decode s.params (s.word s.pc)) { s with pc := s.pc + 1 }) ∧
    step s = exec (decode s.params (memRead s s.pc).1) { (memRead s s.pc).2 with pc := s.pc + 1 }

/-- Halted is terminal: no step and no fetch (30_encoding.md R72, 60_exceptions.md R173). That this
reads as a refusal is the model's choice (log entry 8). -/
def Obligations.HaltedHasNoStep : Prop :=
  ∀ s : State, s.run = .halted →
    step s = .refused .halted ∧
    ∀ k, Host.Core.run Sys2Proof.core (k + 1) s = .refused .halted

/-- A running machine is never refused: every Word has its meaning (30_encoding.md R75). Stops are
faults, the spec's decision D18 (log entry 7). -/
def Obligations.RunningIsNeverRefused : Prop :=
  ∀ (s : State) (r : Refusal), s.run = .running → step s ≠ .refused r

/-- The only ways a running machine stops (60_exceptions.md R160 to R165, R175): a reserved opcode, an
undefined vector under policy fault, a GETC or IN with no character. At a fault the record holds the
instruction's own address and Word, and the state is the one the fetch left (R164). The contents of
the record are the spec's decisions D18 and D19 (log entry 7). -/
def Obligations.OnlyListedStops : Prop :=
  ∀ (s : State) (f : Fault), s.params.wf = true → step s = .fault f →
    (f = .illegalOpcode s.pc (fetch s).1 (fetch s).2 ∧
      ((decode s.params (fetch s).1).opcode = .reserved8 ∨
       (decode s.params (fetch s).1).opcode = .reservedD)) ∨
    (∃ ig v, f = .illegalTrap v s.pc (fetch s).1 (fetch s).2 ∧
      decode s.params (fetch s).1 = .trap ig v ∧ s.params.trapVectors.isDefined v = false ∧
      s.params.undefinedTrapPolicy = .fault) ∨
    (∃ t, f = .waitingForInput t ∧ (fetch s).2.input = [] ∧
      (decode s.params (fetch s).1 = .trapGetc ∨ decode s.params (fetch s).1 = .trapIn))

/-- Which instructions write which general register (10_state.md R22): every register outside the table
keeps its value, whatever the instruction (the row of TRAP_WRITES_R7 is the spec's decision D12, log
entry 19). -/
def Obligations.RegistersOutsideTheTableKeep : Prop :=
  ∀ (i : Instr) (s t : State) (r : RegNum), i.wf s.params = true → exec i s = .next t →
    r ∉ registersWritten s.params i → t.reg r = s.reg r

/-- COND is written by exactly the instructions of 10_state.md R28, each from the Word it has just
written; every other instruction leaves it unchanged. -/
def Obligations.CondWrittenExactlyBySetters : Prop :=
  ∀ (i : Instr) (s t : State), i.wf s.params = true → exec i s = .next t →
    (∀ r, flagRegister i = some r → t.cond = condFor s.params.condEnc (t.reg r)) ∧
    (flagRegister i = none → t.cond = s.cond)

/-- An instruction that does not transfer control leaves `pc` at the incremented value
(10_state.md R24, 43_trap.md R140). -/
def Obligations.PcMovesOnByOne : Prop :=
  ∀ s t : State, step s = .next t → transfersControl (decode s.params (fetch s).1) = false →
    t.pc = s.pc + 1

/-- The machine remains Running unless a HALT trap is executed (10_state.md R31). -/
def Obligations.OnlyHaltEndsTheRun : Prop :=
  ∀ s t : State, step s = .next t →
    (t.run = .halted ↔ decode s.params (fetch s).1 = .trapHalt)

/-- Once it is fetched, an instruction other than LD, LDI, LDR, ST, STI and STR leaves every Word of
memory, the device cells among them, and the poll answers as they were: the poll of its fetch, where
`pc` is KBSR_ADDR, comes before (20_memory.md R53, 41_load_store.md R113, 43_trap.md R140). That PUTS
and PUTSP never poll is the spec's decision D8 (20_memory.md R49, log entry 17). -/
def Obligations.OnlyMemoryInstructionsTouchMemory : Prop :=
  ∀ (i : Instr) (s t : State), accessesMemory i = false → exec i s = .next t →
    sameMemory s t ∧ t.draws = s.draws ∧ t.polls = s.polls

/-- Over every run: the output sink only grows at its end, the input source is only consumed from its
front (10_state.md R32; one shared source and an append-only sink are the spec's decisions D28 and D29,
log entries 9 and 26), and the parameters stay (log entry 1). -/
def Obligations.PortsAreSequential : Prop :=
  ∀ (k : Nat) (s t : State), Host.Core.run Sys2Proof.core k s = .next t →
    s.output <+: t.output ∧ t.input <:+ s.input ∧ t.params = s.params

/-! ### Flags and immediates -/

/-- `setcc` (10_state.md R27). -/
def Obligations.SetccFollowsSign : Prop :=
  ∀ (s : State) (v : Word),
    (v = 0x0000 → (s.setcc v).cond = s.params.condEnc.z) ∧
    (0x8000 ≤ v.toNat → (s.setcc v).cond = s.params.condEnc.n) ∧
    (0x0001 ≤ v.toNat → v.toNat ≤ 0x7FFF → (s.setcc v).cond = s.params.condEnc.p)

/-- `sext_n` and `zext_n` (00_scope.md R11), for every width up to 16. -/
def Obligations.ExtensionsKeepTheirField : Prop :=
  (∀ (n : Nat) (v : BitVec n), 0 < n → n ≤ 16 →
    (∀ i, i < n → (sext v).getLsbD i = v.getLsbD i) ∧
    (∀ i, n ≤ i → i < 16 → (sext v).getLsbD i = v.getLsbD (n - 1))) ∧
  (∀ (n : Nat) (v : BitVec n), n ≤ 16 → (zext v).toNat = v.toNat)

/-! ### Operate instructions -/

/-- ADD, register mode: the sum of the old sources modulo 2^16, and its flag (40_operate.md R100). -/
def Obligations.AddRegisterResult : Prop :=
  ∀ (s : State) (dr sr1 sr2 : RegNum), ∃ (v : Word) (t : State),
    exec (.addReg dr sr1 sr2) s = .next t ∧
    v.toNat = ((s.reg sr1).toNat + (s.reg sr2).toNat) % 2 ^ 16 ∧ wroteFlagged s t dr v ∧
    t.pc = s.pc ∧ sameMemory s t ∧ samePorts s t ∧ sameRun s t

/-- ADD, immediate mode: imm5 sign-extended (40_operate.md R101). -/
def Obligations.AddImmediateResult : Prop :=
  ∀ (s : State) (dr sr1 : RegNum) (imm5 : BitVec 5),
    (∀ o, opcodeAt s.params o = .add → decode s.params (o ++ dr ++ sr1 ++ 1#1 ++ imm5) = .addImm dr sr1 imm5) ∧
    ∃ (v : Word) (t : State),
    exec (.addImm dr sr1 imm5) s = .next t ∧
    (v.toNat : Int) = ((s.reg sr1).toNat + imm5.toInt) % 2 ^ 16 ∧ wroteFlagged s t dr v ∧
    t.pc = s.pc ∧ sameMemory s t ∧ samePorts s t ∧ sameRun s t

/-- AND, register mode, bit by bit (40_operate.md R102). -/
def Obligations.AndRegisterResult : Prop :=
  ∀ (s : State) (dr sr1 sr2 : RegNum), ∃ (v : Word) (t : State),
    exec (.andReg dr sr1 sr2) s = .next t ∧
    (∀ i, v.getLsbD i = ((s.reg sr1).getLsbD i && (s.reg sr2).getLsbD i)) ∧ wroteFlagged s t dr v ∧
    t.pc = s.pc ∧ sameMemory s t ∧ samePorts s t ∧ sameRun s t

/-- AND, immediate mode: bits [15:5] of the source are kept where imm5 is negative and cleared where it
is not (40_operate.md R103). -/
def Obligations.AndImmediateResult : Prop :=
  ∀ (s : State) (dr sr1 : RegNum) (imm5 : BitVec 5),
    (∀ o, opcodeAt s.params o = .and → decode s.params (o ++ dr ++ sr1 ++ 1#1 ++ imm5) = .andImm dr sr1 imm5) ∧
    ∃ (v : Word) (t : State),
    exec (.andImm dr sr1 imm5) s = .next t ∧
    (∀ i, i < 5 → v.getLsbD i = ((s.reg sr1).getLsbD i && imm5.getLsbD i)) ∧
    (∀ i, 5 ≤ i → i < 16 → v.getLsbD i = ((s.reg sr1).getLsbD i && imm5.getLsbD 4)) ∧
    wroteFlagged s t dr v ∧ t.pc = s.pc ∧ sameMemory s t ∧ samePorts s t ∧ sameRun s t

/-- NOT: the complement within 16 bits (40_operate.md R104). -/
def Obligations.NotResult : Prop :=
  ∀ (s : State) (dr sr : RegNum), ∃ (v : Word) (t : State),
    exec (.not dr sr) s = .next t ∧
    v.toNat = 0xFFFF - (s.reg sr).toNat ∧ wroteFlagged s t dr v ∧
    t.pc = s.pc ∧ sameMemory s t ∧ samePorts s t ∧ sameRun s t

/-! ### Memory, loads and stores -/

/-- A datapath read at any address but KBSR_ADDR, KBDR_ADDR included, returns the cell and changes
nothing (20_memory.md R42, R45, R53; that a read of KBDR_ADDR and every other read is plain is the spec's
decision D9, log entry 17). -/
def Obligations.PlainReadsChangeNothing : Prop :=
  ∀ (s : State) (a : Word), a ≠ s.params.kbsrAddr → memRead s a = (s.word a, s)

/-- A datapath read of KBSR_ADDR polls and returns what its own poll wrote (20_memory.md R45 to R47; the
spec's decisions D6 and D7, log entry 17): taken, the first pending character is consumed and both
device cells are written, KBSR_ADDR and KBDR_ADDR being two parameters (R43, log entry 24); not taken,
or nothing pending, the status cell is cleared and no other is touched. Whether a pending character is taken is the draw; one that the host has fixed is used (log
entry 4). -/
def Obligations.KeyboardReadPolls : Prop :=
  ∀ s : State, ∃ (v : Word) (t : State),
    memRead s s.params.kbsrAddr = (v, t) ∧
    (match s.input, s.nextDraw with
      | c :: rest, true =>
        (s.params.kbdrAddr ≠ s.params.kbsrAddr →
          v = s.params.kbsrReady ∧ t.word s.params.kbsrAddr = s.params.kbsrReady) ∧
        t.word s.params.kbdrAddr = c.setWidth 16 ∧ t.input = rest ∧
        (∀ a, a ≠ s.params.kbsrAddr → a ≠ s.params.kbdrAddr → t.word a = s.word a)
      | _, _ =>
        v = 0x0000 ∧ t.word s.params.kbsrAddr = 0x0000 ∧ t.input = s.input ∧
        (∀ a, a ≠ s.params.kbsrAddr → t.word a = s.word a)) ∧
    t.draws = s.draws.tail ∧ t.polls = s.polls + 1 ∧
    sameRegsBut s t [] ∧ t.pc = s.pc ∧ t.cond = s.cond ∧ t.output = s.output ∧ sameRun s t ∧
    (∀ d ds, s.draws = d :: ds → s.nextDraw = d)

/-- LD: one MemRead at the PC-relative address (41_load_store.md R110). -/
def Obligations.LoadResult : Prop :=
  ∀ (s : State) (dr : RegNum) (off : BitVec 9),
    (∀ o, opcodeAt s.params o = .ld → decode s.params (o ++ dr ++ off) = .ld dr off) ∧
    ∃ t : State,
    exec (.ld dr off) s = .next t ∧
    wroteFlagged s t dr (memRead s (s.pc + off.signExtend 16)).1 ∧
    t.pc = s.pc ∧ sameMemory (memRead s (s.pc + off.signExtend 16)).2 t ∧
    samePorts (memRead s (s.pc + off.signExtend 16)).2 t ∧ sameRun s t

/-- LDI: the pointer read, then the value read in the state the first read left, with nothing between
them (41_load_store.md R111). -/
def Obligations.LoadIndirectResult : Prop :=
  ∀ (s : State) (dr : RegNum) (off : BitVec 9),
    (∀ o, opcodeAt s.params o = .ldi → decode s.params (o ++ dr ++ off) = .ldi dr off) ∧
    ∃ (ea v : Word) (s1 s2 t : State),
      memRead s (s.pc + off.signExtend 16) = (ea, s1) ∧ memRead s1 ea = (v, s2) ∧
      exec (.ldi dr off) s = .next t ∧ wroteFlagged s t dr v ∧
      t.pc = s.pc ∧ sameMemory s2 t ∧ samePorts s2 t ∧ sameRun s t

/-- LDR: one MemRead at the old base plus the sign-extended offset6 (41_load_store.md R112). -/
def Obligations.LoadBaseOffsetResult : Prop :=
  ∀ (s : State) (dr baseR : RegNum) (off : BitVec 6),
    (∀ o, opcodeAt s.params o = .ldr → decode s.params (o ++ dr ++ baseR ++ off) = .ldr dr baseR off) ∧
    ∃ t : State,
    exec (.ldr dr baseR off) s = .next t ∧
    wroteFlagged s t dr (memRead s (s.reg baseR + off.signExtend 16)).1 ∧
    t.pc = s.pc ∧ sameMemory (memRead s (s.reg baseR + off.signExtend 16)).2 t ∧
    samePorts (memRead s (s.reg baseR + off.signExtend 16)).2 t ∧ sameRun s t

/-- Loads that do not read KBSR_ADDR load memory's Word and change nothing besides the destination and
COND (20_memory.md R53; 41_load_store.md R110, R111, R112). -/
def Obligations.LoadsAwayFromTheKeyboard : Prop :=
  ∀ (s : State) (dr baseR : RegNum) (off9 : BitVec 9) (off6 : BitVec 6),
    (s.pc + off9.signExtend 16 ≠ s.params.kbsrAddr →
      ∃ t, exec (.ld dr off9) s = .next t ∧
        wroteFlagged s t dr (s.word (s.pc + off9.signExtend 16)) ∧
        t.pc = s.pc ∧ sameMemory s t ∧ samePorts s t ∧ sameRun s t) ∧
    (s.pc + off9.signExtend 16 ≠ s.params.kbsrAddr →
      s.word (s.pc + off9.signExtend 16) ≠ s.params.kbsrAddr →
      ∃ t, exec (.ldi dr off9) s = .next t ∧
        wroteFlagged s t dr (s.word (s.word (s.pc + off9.signExtend 16))) ∧
        t.pc = s.pc ∧ sameMemory s t ∧ samePorts s t ∧ sameRun s t) ∧
    (s.reg baseR + off6.signExtend 16 ≠ s.params.kbsrAddr →
      ∃ t, exec (.ldr dr baseR off6) s = .next t ∧
        wroteFlagged s t dr (s.word (s.reg baseR + off6.signExtend 16)) ∧
        t.pc = s.pc ∧ sameMemory s t ∧ samePorts s t ∧ sameRun s t)

/-- LEA: the PC-relative address itself, with no memory access and so no poll
(41_load_store.md R113). -/
def Obligations.LoadEffectiveAddressResult : Prop :=
  ∀ (s : State) (dr : RegNum) (off : BitVec 9),
    (∀ o, opcodeAt s.params o = .lea → decode s.params (o ++ dr ++ off) = .lea dr off) ∧
    ∃ (v : Word) (t : State),
    exec (.lea dr off) s = .next t ∧
    (v.toNat : Int) = (s.pc.toNat + off.toInt) % 2 ^ 16 ∧ wroteFlagged s t dr v ∧
    t.pc = s.pc ∧ sameMemory s t ∧ samePorts s t ∧ sameRun s t

/-- ST: a plain store at the PC-relative address, at the device addresses too; every other Word,
register and flag is unchanged (41_load_store.md R114, 20_memory.md R48). -/
def Obligations.StoreResult : Prop :=
  ∀ (s : State) (sr : RegNum) (off : BitVec 9),
    (∀ o, opcodeAt s.params o = .st → decode s.params (o ++ sr ++ off) = .st sr off) ∧
    ∃ t : State,
    exec (.st sr off) s = .next t ∧
    t.word (s.pc + off.signExtend 16) = s.reg sr ∧
    (∀ a, a ≠ s.pc + off.signExtend 16 → t.word a = s.word a) ∧
    sameRegsBut s t [] ∧ t.cond = s.cond ∧ t.pc = s.pc ∧ samePorts s t ∧ sameRun s t

/-- STI: the pointer is a MemRead, the store at the pointer is plain (41_load_store.md R115). -/
def Obligations.StoreIndirectResult : Prop :=
  ∀ (s : State) (sr : RegNum) (off : BitVec 9),
    (∀ o, opcodeAt s.params o = .sti → decode s.params (o ++ sr ++ off) = .sti sr off) ∧
    ∃ (ea : Word) (s1 t : State),
      memRead s (s.pc + off.signExtend 16) = (ea, s1) ∧
      exec (.sti sr off) s = .next t ∧
      t.word ea = s.reg sr ∧ (∀ a, a ≠ ea → t.word a = s1.word a) ∧
      sameRegsBut s t [] ∧ t.cond = s.cond ∧ t.pc = s.pc ∧ samePorts s1 t ∧ sameRun s t

/-- STR: a plain store at the base plus the sign-extended offset6; the base keeps its value
(41_load_store.md R116). -/
def Obligations.StoreBaseOffsetResult : Prop :=
  ∀ (s : State) (sr baseR : RegNum) (off : BitVec 6),
    (∀ o, opcodeAt s.params o = .str → decode s.params (o ++ sr ++ baseR ++ off) = .str sr baseR off) ∧
    ∃ t : State,
    exec (.str sr baseR off) s = .next t ∧
    t.word (s.reg baseR + off.signExtend 16) = s.reg sr ∧
    (∀ a, a ≠ s.reg baseR + off.signExtend 16 → t.word a = s.word a) ∧
    sameRegsBut s t [] ∧ t.cond = s.cond ∧ t.pc = s.pc ∧ samePorts s t ∧ sameRun s t

/-- A store is seen by the very next fetch (20_memory.md R58): after an ST at the incremented `pc`, the
next step executes the stored Word. -/
def Obligations.StoreIsFetchedNext : Prop :=
  ∀ (s : State) (sr : RegNum), s.run = .running → s.pc ≠ s.params.kbsrAddr →
    s.pc + 1 ≠ s.params.kbsrAddr → decode s.params (s.word s.pc) = .st sr 0 →
    ∃ t, step s = .next t ∧ t.pc = s.pc + 1 ∧ t.params = s.params ∧
      step t = exec (decode s.params (s.reg sr)) { t with pc := s.pc + 2 }

/-! ### Control transfer -/

/-- BR: `pc` becomes the target if and only if mask and COND have a common bit, COND being the one-hot
Word N = 0x0004, Z = 0x0002, P = 0x0001; nothing else changes (42_control.md R130). -/
def Obligations.BranchResult : Prop :=
  ∀ (s : State) (nzp : BitVec 3) (off : BitVec 9),
    (∀ o, opcodeAt s.params o = .br → decode s.params (o ++ nzp ++ off) = .br nzp off) ∧
    ∃ t : State,
    exec (.br nzp off) s = .next t ∧
    (s.params.condEnc = { p := 0x0001, z := 0x0002, n := 0x0004 } →
      ((∃ i, nzp.getLsbD i = true ∧ s.cond.getLsbD i = true) →
        (t.pc.toNat : Int) = (s.pc.toNat + off.toInt) % 2 ^ 16) ∧
      ((∀ i, nzp.getLsbD i = true → s.cond.getLsbD i = false) → t.pc = s.pc)) ∧
    sameRegsBut s t [] ∧ t.cond = s.cond ∧ sameMemory s t ∧ samePorts s t ∧ sameRun s t

/-- Under every one-hot COND_ENC each mask bit tests the flag of its own name, n = bit 11, z = bit 10,
p = bit 9, so the results are the same for all of them (10_state.md R26); the mask 111 always branches
and the mask 000 never does (42_control.md R130). The bit order n, z, p is the spec's decision D3 (log
entry 18). -/
def Obligations.BranchTestsFlagsByName : Prop :=
  ∀ (s : State) (nzp : BitVec 3) (off : BitVec 9), s.condLegal → s.params.wf = true →
    exec (.br nzp off) s = .next
      (if nzp.getLsbD 2 = true ∧ s.cond = s.params.condEnc.n ∨
          nzp.getLsbD 1 = true ∧ s.cond = s.params.condEnc.z ∨
          nzp.getLsbD 0 = true ∧ s.cond = s.params.condEnc.p
        then { s with pc := s.pc + off.signExtend 16 } else s) ∧
    exec (.br 0b111 off) s = .next { s with pc := s.pc + off.signExtend 16 } ∧
    exec (.br 0b000 off) s = .next s

/-- JMP: `pc` becomes the base register (42_control.md R131). -/
def Obligations.JumpResult : Prop :=
  ∀ (s : State) (baseR : RegNum), ∃ t : State,
    exec (.jmp baseR) s = .next t ∧ t.pc = s.reg baseR ∧
    sameRegsBut s t [] ∧ t.cond = s.cond ∧ sameMemory s t ∧ samePorts s t ∧ sameRun s t

/-- JSR: R7 is the incremented PC, `pc` the PC-relative target (42_control.md R132). -/
def Obligations.JumpSubroutineResult : Prop :=
  ∀ (s : State) (off : BitVec 11),
    (∀ o, opcodeAt s.params o = .jsr → decode s.params (o ++ 1#1 ++ off) = .jsr off) ∧
    ∃ t : State,
    exec (.jsr off) s = .next t ∧ t.reg 7 = s.pc ∧
    (t.pc.toNat : Int) = (s.pc.toNat + off.toInt) % 2 ^ 16 ∧
    sameRegsBut s t [7] ∧ t.cond = s.cond ∧ sameMemory s t ∧ samePorts s t ∧ sameRun s t

/-- JSRR: R7 is the incremented PC, `pc` the base register, which is read after R7 is written unless
JSRR_BASE_FIRST is set (42_control.md R133; the default order is the spec's decision D25, log
entry 20). -/
def Obligations.JumpSubroutineRegisterResult : Prop :=
  ∀ (s : State) (baseR : RegNum), ∃ t : State,
    exec (.jsrr baseR) s = .next t ∧ t.reg 7 = s.pc ∧
    (baseR ≠ 7 → t.pc = s.reg baseR) ∧
    (baseR = 7 → s.params.jsrrBaseFirst = false → t.pc = s.pc) ∧
    (baseR = 7 → s.params.jsrrBaseFirst = true → t.pc = s.reg 7) ∧
    sameRegsBut s t [7] ∧ t.cond = s.cond ∧ sameMemory s t ∧ samePorts s t ∧ sameRun s t

/-! ### TRAP -/

/-- GETC with a character to supply: it is consumed and zero-extended into R0, with no echo and no
flags (43_trap.md R141, R148; that a character is a byte and the R7 write are the spec's decisions D13
and D12, log entries 22 and 19). -/
def Obligations.GetcResult : Prop :=
  ∀ (s : State) (c : Byte) (rest : List Byte), s.input = c :: rest →
    ∃ t : State, exec .trapGetc s = .next t ∧
      (t.reg 0).toNat = c.toNat ∧ trapRegs s t [0] ∧ t.input = rest ∧ t.output = s.output ∧
      t.draws = s.draws ∧ t.polls = s.polls ∧
      t.cond = s.cond ∧ t.pc = s.pc ∧ sameMemory s t ∧ sameRun s t

/-- OUT: the low byte of R0 joins the output sink (43_trap.md R142, with R148 for R7, the spec's
decision D12, log entry 19). -/
def Obligations.OutResult : Prop :=
  ∀ s : State, ∃ (b : Byte) (t : State), exec .trapOut s = .next t ∧
    b.toNat = (s.reg 0).toNat % 2 ^ 8 ∧ t.output = s.output ++ [b] ∧ trapRegs s t [] ∧
    t.input = s.input ∧ t.draws = s.draws ∧ t.polls = s.polls ∧
    t.cond = s.cond ∧ t.pc = s.pc ∧ sameMemory s t ∧ sameRun s t

/-- PUTS: the low bytes of the Words from R0 on, up to the first zero Word or the top of the address
space; RawReads, so no poll; R7 as in R148 (43_trap.md R143, R148, 20_memory.md R49; the stop at 0xFFFF
and the one character in a Word are the spec's decisions D14 and D13, log entry 22, the plain reads its
decision D8, log entry 17, the R7 write its decision D12, log entry 19). -/
def Obligations.PutsResult : Prop :=
  ∀ s : State, ∃ (n : Nat) (t : State),
    (∀ k < n, (s.reg 0).toNat + k ≤ 0xFFFF ∧ s.word (s.reg 0 + BitVec.ofNat 16 k) ≠ 0x0000) ∧
    ((s.reg 0).toNat + n = 0x10000 ∨
      ((s.reg 0).toNat + n ≤ 0xFFFF ∧ s.word (s.reg 0 + BitVec.ofNat 16 n) = 0x0000)) ∧
    exec .trapPuts s = .next t ∧
    t.output = s.output ++
      (List.range n).map (fun k => (s.word (s.reg 0 + BitVec.ofNat 16 k)).extractLsb' 0 8) ∧
    trapRegs s t [] ∧ t.input = s.input ∧ t.draws = s.draws ∧ t.polls = s.polls ∧
    t.cond = s.cond ∧ t.pc = s.pc ∧ sameMemory s t ∧ sameRun s t

/-- IN with a character to supply: the prompt, the echo, the character zero-extended in R0, and the
flag Z for 0 and P for any other (43_trap.md R144, R148; the R7 write is the spec's decision D12, log
entry 19). -/
def Obligations.InResult : Prop :=
  ∀ (s : State) (c : Byte) (rest : List Byte), s.input = c :: rest →
    ∃ t : State, exec .trapIn s = .next t ∧
      t.output = s.output ++ s.params.inPrompt ++ [c] ∧
      (t.reg 0).toNat = c.toNat ∧ trapRegs s t [0] ∧
      (c = 0 → t.cond = s.params.condEnc.z) ∧ (c ≠ 0 → t.cond = s.params.condEnc.p) ∧
      t.input = rest ∧ t.draws = s.draws ∧ t.polls = s.polls ∧
      t.pc = s.pc ∧ sameMemory s t ∧ sameRun s t

/-- PUTSP: of each Word from R0 on the low byte, then the high byte if it is not zero, up to the first
zero Word or the top of the address space; RawReads, so no poll; R7 as in R148 (43_trap.md R145, R148,
20_memory.md R49; the stop at 0xFFFF is the spec's decision D14, log entry 22, the plain reads its
decision D8, log entry 17, the R7 write its decision D12, log entry 19, and that a zero low byte is
written is marked derived in R145). -/
def Obligations.PutspResult : Prop :=
  ∀ s : State, ∃ (n : Nat) (t : State),
    (∀ k < n, (s.reg 0).toNat + k ≤ 0xFFFF ∧ s.word (s.reg 0 + BitVec.ofNat 16 k) ≠ 0x0000) ∧
    ((s.reg 0).toNat + n = 0x10000 ∨
      ((s.reg 0).toNat + n ≤ 0xFFFF ∧ s.word (s.reg 0 + BitVec.ofNat 16 n) = 0x0000)) ∧
    exec .trapPutsp s = .next t ∧
    t.output = s.output ++
      (List.range n).flatMap (fun k =>
        let w := s.word (s.reg 0 + BitVec.ofNat 16 k)
        if w.toNat < 0x100 then [w.extractLsb' 0 8] else [w.extractLsb' 0 8, w.extractLsb' 8 8]) ∧
    trapRegs s t [] ∧ t.input = s.input ∧ t.draws = s.draws ∧ t.polls = s.polls ∧
    t.cond = s.cond ∧ t.pc = s.pc ∧ sameMemory s t ∧ sameRun s t

/-- HALT: the notice joins the output and the run state becomes Halted; `pc` and the rest are unchanged
(43_trap.md R146, with R148 for R7, the spec's decision D12, log entry 19). -/
def Obligations.HaltResult : Prop :=
  ∀ s : State, ∃ t : State, exec .trapHalt s = .next t ∧
    t.output = s.output ++ s.params.haltNotice ∧ t.run = .halted ∧ trapRegs s t [] ∧
    t.input = s.input ∧ t.draws = s.draws ∧ t.polls = s.polls ∧
    t.cond = s.cond ∧ t.pc = s.pc ∧ sameMemory s t ∧ t.params = s.params

/-- GETC and IN with an empty input source hold: no next state; IN's prompt is out by then
(60_exceptions.md R175, 43_trap.md R141, R144, with R148 for R7; the spec's decisions D15 and D12, log
entries 6 and 19). -/
def Obligations.InputServicesHoldWithoutInput : Prop :=
  ∀ s : State, s.input = [] →
    (∃ t, exec .trapGetc s = .fault (.waitingForInput t) ∧ t.output = s.output ∧
      trapRegs s t [] ∧ t.cond = s.cond ∧ t.pc = s.pc ∧ sameMemory s t ∧ t.input = [] ∧ sameRun s t) ∧
    (∃ t, exec .trapIn s = .fault (.waitingForInput t) ∧ t.output = s.output ++ s.params.inPrompt ∧
      trapRegs s t [] ∧ t.cond = s.cond ∧ t.pc = s.pc ∧ sameMemory s t ∧ t.input = [] ∧ sameRun s t)

/-- TRAP with an undefined vector under policy nop changes nothing, even with TRAP_WRITES_R7
(43_trap.md R147; the policy is the spec's parameter of decision D11, log entry 21). -/
def Obligations.UndefinedTrapIsNopUnderNop : Prop :=
  ∀ (s : State) (ignored : BitVec 4) (v : BitVec 8), s.params.trapVectors.isDefined v = false →
    s.params.undefinedTrapPolicy = .nop → exec (.trap ignored v) s = .next s

/-- TRAP with an undefined vector under policy fault, the default, raises IllegalTrap with the
instruction's address, Word and vector, and changes nothing (43_trap.md R147, 60_exceptions.md R161;
decisions D11 and D19, log entries 7 and 21). -/
def Obligations.UndefinedTrapFaultsUnderFault : Prop :=
  ∀ (s : State) (ignored : BitVec 4) (v : BitVec 8), s.params.wf = true →
    s.params.trapVectors.isDefined v = false → s.params.undefinedTrapPolicy = .fault →
    exec (.trap ignored v) s = .fault (.illegalTrap v (s.pc - 1) (0xF#4 ++ ignored ++ v) s)

/-- The model's choice (DESIGN CHOICE, log entry 12): exec of the generic TRAP row carrying a service's
vector is that service, as the dispatch of 43_trap.md R140 has it. The decoder never yields that
(30_encoding.md R78): it gives a defined vector its own row. -/
def Obligations.TrapDispatchesOnVector : Prop :=
  ∀ (s : State) (ignored : BitVec 4), s.params.wf = true →
    exec (.trap ignored s.params.trapVectors.getc) s = exec .trapGetc s ∧
    exec (.trap ignored s.params.trapVectors.out) s = exec .trapOut s ∧
    exec (.trap ignored s.params.trapVectors.puts) s = exec .trapPuts s ∧
    exec (.trap ignored s.params.trapVectors.inp) s = exec .trapIn s ∧
    exec (.trap ignored s.params.trapVectors.putsp) s = exec .trapPutsp s ∧
    exec (.trap ignored 0x25) s = exec .trapHalt s

/-! ### Reserved opcodes and fetches from the device -/

/-- The two reserved opcodes raise IllegalOpcode, whatever their other twelve bits hold, with the
instruction's address and Word; nothing else changes (60_exceptions.md R160, R164; the values 0x8 and
0xD are the spec's decision D2, the record its decision D19, log entries 7 and 15). -/
def Obligations.ReservedOpcodesFault : Prop :=
  (∀ (s : State) (x : BitVec 12), s.params.opcodes = defaultOpcodes →
    exec (.reserved8 x) s = .fault (.illegalOpcode (s.pc - 1) (0x8#4 ++ x) s) ∧
    exec (.reservedD x) s = .fault (.illegalOpcode (s.pc - 1) (0xD#4 ++ x) s)) ∧
  (∀ (s : State) (x : BitVec 12), ∃ w8 wD,
    exec (.reserved8 x) s = .fault (.illegalOpcode (s.pc - 1) w8 s) ∧
    exec (.reservedD x) s = .fault (.illegalOpcode (s.pc - 1) wD s))

/-- A fetch from KBSR_ADDR executes what its own poll wrote: with the default KBSR_READY and OPCODE_MAP
an IllegalOpcode where a character is taken, a BR that never branches where none is
(20_memory.md R53, which the spec marks as derived; decision D8, log entry 17). -/
def Obligations.FetchFromKeyboardStatus : Prop :=
  ∀ s : State, s.run = .running → s.params = defaultParams → s.pc = 0xFE00 →
    (∀ c rest, s.input = c :: rest → s.nextDraw = true →
      ∃ t, step s = .fault (.illegalOpcode 0xFE00 0x8000 t) ∧
        t.pc = 0xFE01 ∧ t.word 0xFE01 = c.setWidth 16 ∧ t.input = rest) ∧
    (s.input = [] ∨ s.nextDraw = false →
      ∃ t, step s = .next t ∧ t.pc = 0xFE01 ∧ t.word 0xFE00 = 0x0000 ∧ t.input = s.input ∧
        sameRegsBut s t [] ∧ t.cond = s.cond)

/-- Unloaded memory is run as BRs that never branch (70_reset_and_hazards.md R187, which the spec marks
as derived): a step on a zero Word, opcode 0 being BR's, moves `pc` on and changes nothing else. -/
def Obligations.ZeroWordSlides : Prop :=
  ∀ s : State, s.run = .running → s.pc ≠ s.params.kbsrAddr → s.word s.pc = 0x0000 →
    opcodeAt s.params 0 = .br → step s = .next { s with pc := s.pc + 1 }

/-! ### The loader -/

/-- `Load`: the big-endian payload Words stand from the origin on; Words above 0xFFFF and a last odd byte
are dropped; every other Word and all other state is unchanged (70_reset_and_hazards.md R184; the odd
byte is the spec's decision D22, log entry 14). -/
def Obligations.LoadPlacesTheImage : Prop :=
  ∀ (s : State) (hi lo : Byte) (payload : List Byte), ∃ t : State,
    load s (.bytes (hi :: lo :: payload)) = .ok t ∧
    (∀ a : Word, t.word a =
      if hi.toNat * 256 + lo.toNat ≤ a.toNat ∧
          a.toNat - (hi.toNat * 256 + lo.toNat) < payload.length / 2 then
        payload.getD (2 * (a.toNat - (hi.toNat * 256 + lo.toNat))) 0 ++
          payload.getD (2 * (a.toNat - (hi.toNat * 256 + lo.toNat)) + 1) 0
      else s.word a) ∧
    sameRegsBut s t [] ∧ t.pc = s.pc ∧ t.cond = s.cond ∧ samePorts s t ∧ sameRun s t

/-- The loader's failures: a stream that cannot be opened and one of fewer than 2 bytes; they stop the
start, whatever follows (70_reset_and_hazards.md R185; decision D22, log entry 14). -/
def Obligations.LoadFailures : Prop :=
  (∀ s : State, load s .unopenable = .error .cannotOpen) ∧
  (∀ (s : State) (b : List Byte), b.length < 2 ↔ load s (.bytes b) = .error .noOrigin) ∧
  (∀ (p : Params) (xs ys : List ImageSource) (input : List Byte) (draws : List Bool) (e : LoadError),
    boot p xs input draws = .error e → boot p (xs ++ ys) input draws = .error e)

/-- The images are loaded in the host's order, so a later one overwrites an earlier one
(70_reset_and_hazards.md R186; decision D23, log entry 14). -/
def Obligations.ImagesLoadInOrder : Prop :=
  ∀ (s t u : State) (xs : List ImageSource) (y : ImageSource),
    loadAll xs s = .ok t → load t y = .ok u → loadAll (xs ++ [y]) s = .ok u

/-- What the machine holds when the first step begins, whatever images were loaded: zero registers,
`pc` = START_PC, COND = Z, Running, no output, and memory in its canonical form
(70_reset_and_hazards.md R180, R181; that the output is empty is the spec's decision D29, log entry 26). -/
def Obligations.BootState : Prop :=
  ∀ (p : Params) (images : List ImageSource) (input : List Byte) (draws : List Bool) (s : State),
    boot p images input draws = .ok s →
    (∀ r, s.reg r = 0x0000) ∧ s.pc = p.startPc ∧ s.cond = p.condEnc.z ∧ s.run = .running ∧
    s.output = [] ∧ s.input = input ∧ s.params = p ∧ s.mem.wf

/-- The Word placed by withFetchWord is the one the very next step runs (log entry 13). -/
def Obligations.PlacedWordRunsNext : Prop :=
  ∀ (s : State) (w : Nat), w < 2 ^ 16 → s.pc ≠ s.params.kbsrAddr →
    ∃ t, step (s.withFetchWord 16 w) = exec (decode s.params (BitVec.ofNat 16 w)) t ∧
      t.pc = s.pc + 1 ∧ t.word s.pc = BitVec.ofNat 16 w ∧ t.run = .running ∧
      (∀ a, a ≠ s.pc → t.word a = s.word a) ∧
      sameRegsBut s t [] ∧ t.cond = s.cond ∧ samePorts s t ∧ t.params = s.params
end

