-- ==== Sys2Proof/Laws/WellFormed.lean ====
section
/-! SUPPORT. The limits on the parameters, one by one. -/

namespace Sys2Proof

/-- What a parameter record within its limits satisfies. -/
theorem Params.wf_iff (p : Params) :
    p.wf = true ↔ opcodesWf p.opcodes = true ∧ p.trapVectors.wf = true ∧ p.condEnc.wf = true ∧
      p.kbsrReady.msb = true ∧ p.kbdrAddr ≠ p.kbsrAddr := by
  simp only [Params.wf, Bool.and_eq_true, bne_iff_ne, and_assoc]

/-- What an OPCODE_MAP within its limits satisfies (00_scope.md R7, 30_encoding.md R65). -/
theorem opcodesWf_iff (m : Vector Opcode 16) :
    opcodesWf m = true ↔ (∀ o ∈ Opcode.all, o ∈ m.toList) ∧ m.toList.Nodup ∧ m[1] = .add ∧
      m[15] = .trap := by
  simp only [opcodesWf, Bool.and_eq_true, List.all_eq_true, List.contains_iff_mem,
    decide_eq_true_eq, beq_iff_eq, and_assoc]

/-- The six vectors differ, and HALT's is 0x25 (00_scope.md R7). -/
theorem TrapVectors.wf_iff (t : TrapVectors) :
    t.wf = true ↔ t.toList.Nodup ∧ t.halt = 0x25 := by
  simp only [TrapVectors.wf, Bool.and_eq_true, decide_eq_true_eq, beq_iff_eq]

end Sys2Proof
end

