-- ==== Sys2Proof/Laws/Decode.lean ====
section
/-! SUPPORT. Decoding and encoding: fields as numbers, appended fields as numbers, and OPCODE_MAP read
both ways. -/

namespace Sys2Proof

/-- A field as a number: the Word divided and reduced (00_scope.md R9). -/
theorem bitField_toNat (w : Word) (lo n : Nat) :
    (bitField w lo n).toNat = w.toNat / 2 ^ lo % 2 ^ n := by
  simp [bitField, Nat.shiftRight_eq_div_pow]

/-- A field is the vector with its number. -/
theorem bitField_eq {w : Word} {lo n : Nat} {v : BitVec n} (h : w.toNat / 2 ^ lo % 2 ^ n = v.toNat) :
    bitField w lo n = v :=
  BitVec.eq_of_toNat_eq ((bitField_toNat w lo n).trans h)

/-- An appended vector as a number. Use it by rw, which finds it at any split of the width. -/
theorem toNat_append_add {m n : Nat} (x : BitVec m) (y : BitVec n) :
    (x ++ y).toNat = x.toNat * 2 ^ n + y.toNat := by
  rw [BitVec.toNat_append, Nat.shiftLeft_eq, Nat.mul_comm,
    ← Nat.two_pow_add_eq_or_of_lt y.isLt x.toNat]

/-- The fields of a Word of format PCREL or BR (30_encoding.md R66). -/
theorem bitField_pcrel (o : BitVec 4) (r : BitVec 3) (off : BitVec 9) :
    bitField (o ++ r ++ off) 12 4 = o ∧ bitField (o ++ r ++ off) 9 3 = r ∧
      bitField (o ++ r ++ off) 0 9 = off := by
  have := o.isLt; have := r.isLt; have := off.isLt
  have hn : BitVec.toNat (w := 16) (o ++ r ++ off) =
      (o.toNat * 2 ^ 3 + r.toNat) * 2 ^ 9 + off.toNat :=
    (toNat_append_add (o ++ r) off).trans (by rw [toNat_append_add])
  exact ⟨bitField_eq (by omega), bitField_eq (by omega), bitField_eq (by omega)⟩

/-- The fields of a Word of format BASE (30_encoding.md R66). -/
theorem bitField_base (o : BitVec 4) (r b : BitVec 3) (off : BitVec 6) :
    bitField (o ++ r ++ b ++ off) 12 4 = o ∧ bitField (o ++ r ++ b ++ off) 9 3 = r ∧
      bitField (o ++ r ++ b ++ off) 6 3 = b ∧ bitField (o ++ r ++ b ++ off) 0 6 = off := by
  have := o.isLt; have := r.isLt; have := b.isLt; have := off.isLt
  have hn : BitVec.toNat (w := 16) (o ++ r ++ b ++ off) =
      ((o.toNat * 2 ^ 3 + r.toNat) * 2 ^ 3 + b.toNat) * 2 ^ 6 + off.toNat :=
    (toNat_append_add (o ++ r ++ b) off).trans (by rw [toNat_append_add, toNat_append_add])
  exact ⟨bitField_eq (by omega), bitField_eq (by omega), bitField_eq (by omega),
    bitField_eq (by omega)⟩

/-- The fields of a Word of format OPI (30_encoding.md R66). -/
theorem bitField_opi (o : BitVec 4) (dr sr1 : BitVec 3) (imm5 : BitVec 5) :
    bitField (o ++ dr ++ sr1 ++ 1#1 ++ imm5) 12 4 = o ∧
      bitField (o ++ dr ++ sr1 ++ 1#1 ++ imm5) 9 3 = dr ∧
      bitField (o ++ dr ++ sr1 ++ 1#1 ++ imm5) 6 3 = sr1 ∧
      bitField (o ++ dr ++ sr1 ++ 1#1 ++ imm5) 5 1 = 1 ∧
      bitField (o ++ dr ++ sr1 ++ 1#1 ++ imm5) 0 5 = imm5 := by
  have := o.isLt; have := dr.isLt; have := sr1.isLt; have := imm5.isLt
  have hn : BitVec.toNat (w := 16) (o ++ dr ++ sr1 ++ 1#1 ++ imm5) =
      (((o.toNat * 2 ^ 3 + dr.toNat) * 2 ^ 3 + sr1.toNat) * 2 + 1) * 2 ^ 5 + imm5.toNat :=
    (toNat_append_add (o ++ dr ++ sr1 ++ 1#1) imm5).trans
      (by rw [toNat_append_add, toNat_append_add, toNat_append_add]; rfl)
  exact ⟨bitField_eq (by omega), bitField_eq (by omega), bitField_eq (by omega),
    bitField_eq (by rw [hn]; simp; omega), bitField_eq (by omega)⟩

/-- The fields of a Word of format JSR (30_encoding.md R66). -/
theorem bitField_jsr (o : BitVec 4) (off : BitVec 11) :
    bitField (o ++ 1#1 ++ off) 12 4 = o ∧ bitField (o ++ 1#1 ++ off) 11 1 = 1 ∧
      bitField (o ++ 1#1 ++ off) 0 11 = off := by
  have := o.isLt; have := off.isLt
  have hn : BitVec.toNat (w := 16) (o ++ 1#1 ++ off) =
      (o.toNat * 2 + 1) * 2 ^ 11 + off.toNat :=
    (toNat_append_add (o ++ 1#1) off).trans (by rw [toNat_append_add]; rfl)
  exact ⟨bitField_eq (by omega), bitField_eq (by rw [hn]; simp; omega), bitField_eq (by omega)⟩

/-- An encoding as a number. -/
theorem encode_toNat (p : Params) (i : Instr) :
    (encode p i).toNat = (opcodeValue p i.opcode).toNat * 2 ^ 12 + (encodeFields p i).toNat := by
  unfold encode
  rw [toNat_append_add]

/-- The opcode field of an encoding. -/
@[simp] theorem bitField_encode_opcode (p : Params) (i : Instr) :
    bitField (encode p i) 12 4 = opcodeValue p i.opcode := by
  have ho := (opcodeValue p i.opcode).isLt
  have hf := (encodeFields p i).isLt
  exact bitField_eq (by rw [encode_toNat]; omega)

/-- Every role has a value in a well-formed map. -/
theorem mem_opcodes (p : Params) (hp : p.wf = true) (o : Opcode) : o ∈ p.opcodes.toList :=
  ((opcodesWf_iff _).mp ((Params.wf_iff p).mp hp).1).1 o (by cases o <;> simp [Opcode.all])

/-- In a well-formed map the value of a role has that role. -/
theorem opcodeAt_opcodeValue (p : Params) (hp : p.wf = true) (o : Opcode) :
    opcodeAt p (opcodeValue p o) = o := by
  have hlt : p.opcodes.toList.idxOf o < p.opcodes.toList.length :=
    List.idxOf_lt_length_iff.mpr (mem_opcodes p hp o)
  have h16 : p.opcodes.toList.idxOf o < 16 := by simpa using hlt
  have hnat : (opcodeValue p o).toNat = p.opcodes.toList.idxOf o := by
    simp only [opcodeValue, BitVec.toNat_ofNat]
    omega
  have hget := List.getElem_idxOf hlt
  simp only [opcodeAt, hnat]
  simpa only [Vector.getElem_toList] using hget

/-- In a well-formed map a value is the value of its own role. -/
theorem opcodeValue_opcodeAt (p : Params) (hp : p.wf = true) (v : BitVec 4) :
    opcodeValue p (opcodeAt p v) = v := by
  have hnodup : p.opcodes.toList.Nodup :=
    ((opcodesWf_iff _).mp ((Params.wf_iff p).mp hp).1).2.1
  have hv : v.toNat < p.opcodes.toList.length := by have := v.isLt; simp; omega
  have hidx := hnodup.idxOf_getElem v.toNat hv
  rw [Vector.getElem_toList] at hidx
  exact BitVec.eq_of_toNat_eq (by simp only [opcodeValue, opcodeAt, hidx]; simp)

/-- The role read from the opcode field of an encoding is the instruction's. -/
theorem opcodeAt_encode (p : Params) (hp : p.wf = true) (i : Instr) :
    opcodeAt p (bitField (encode p i) 12 4) = i.opcode := by
  rw [bitField_encode_opcode, opcodeAt_opcodeValue p hp]

end Sys2Proof
end

