-- ==== Sys2Proof/Laws/Memory.lean ====
section
/-! SUPPORT. Memory: a read after a write, for every memory whatever its form, and the canonical form
kept by every operation. -/

namespace Sys2Proof.Machine

@[simp] theorem byteAt_nil (k : Nat) : byteAt [] k = unlistedByte := rfl

/-- Inserting a cell leaves the bytes at other keys alone. -/
theorem byteAt_insertCell_ne (m : Memory) {k j : Nat} (v : Byte) (h : k ≠ j) :
    byteAt (insertCell k v m) j = byteAt m j := by
  induction m with
  | nil => simp [insertCell, byteAt, h]
  | cons c rest ih =>
    simp only [insertCell]
    split <;> simp [byteAt, h, ih]

/-- In a memory without the key, the inserted byte is the one read there. -/
theorem byteAt_insertCell_self (m : Memory) (k : Nat) (v : Byte) (h : ∀ c ∈ m, c.1 ≠ k) :
    byteAt (insertCell k v m) k = v := by
  induction m with
  | nil => simp [insertCell, byteAt]
  | cons c rest ih =>
    obtain ⟨hc, hrest⟩ := List.forall_mem_cons.mp h
    simp only [insertCell]
    split
    · simp [byteAt]
    · simp [byteAt, hc, ih hrest]

/-- Removing a key leaves the bytes at other keys alone. -/
theorem byteAt_filter_ne (m : Memory) {k j : Nat} (h : k ≠ j) :
    byteAt (m.filter (fun c => c.1 != k)) j = byteAt m j := by
  induction m with
  | nil => rfl
  | cons c rest ih =>
    by_cases hk : c.1 = k
    · have hj : c.1 ≠ j := fun e => h (hk.symm.trans e)
      simpa [List.filter_cons, hk, byteAt, h] using ih
    · simp [hk, byteAt, ih]

/-- A removed key reads as unlisted. -/
theorem byteAt_filter_self (m : Memory) (k : Nat) :
    byteAt (m.filter (fun c => c.1 != k)) k = unlistedByte := by
  induction m with
  | nil => rfl
  | cons c rest ih =>
    by_cases hk : c.1 = k
    · simpa [List.filter_cons, hk] using ih
    · simp [hk, byteAt, ih]

/-- A byte read after a byte written. -/
theorem byteAt_setByte (m : Memory) (k j : Nat) (v : Byte) :
    byteAt (setByte m k v) j = if j = k then v else byteAt m j := by
  by_cases hj : j = k
  · subst hj
    by_cases hv : v = unlistedByte
    · simp [setByte, hv, byteAt_filter_self]
    · simpa [setByte, hv] using byteAt_insertCell_self _ j v (by simp)
  · have hkj : k ≠ j := fun e => hj e.symm
    by_cases hv : v = unlistedByte
    · simp [setByte, hv, hj, byteAt_filter_ne m hkj]
    · simp [setByte, hv, hj, byteAt_insertCell_ne _ v hkj, byteAt_filter_ne m hkj]

/-- A Word read after a Word written: the Word itself at its address, every other one as before. -/
theorem readWord_writeWord (m : Memory) (a b v : Word) :
    readWord (writeWord m a v) b = if b = a then v else readWord m b := by
  have hsplit : v.extractLsb' 8 8 ++ v.extractLsb' 0 8 = v := by
    ext i hi
    simp only [BitVec.getElem_append, BitVec.getElem_extractLsb']
    by_cases h8 : i < 8
    · simp [h8, BitVec.getLsbD_eq_getElem hi]
    · simp [h8, show 8 + (i - 8) = i by omega, BitVec.getLsbD_eq_getElem hi]
  by_cases hab : b = a
  · subst hab
    simp [readWord, writeWord, byteAt_setByte, hsplit]
  · have hne : b.toNat ≠ a.toNat := fun e => hab (BitVec.eq_of_toNat_eq e)
    have h1 : 2 * b.toNat ≠ 2 * a.toNat + 1 := by omega
    have h2 : 2 * b.toNat ≠ 2 * a.toNat := by omega
    have h4 : 2 * b.toNat + 1 ≠ 2 * a.toNat := by omega
    simp [readWord, writeWord, byteAt_setByte, hab, h1, h2, h4]

/-- What a cell of a memory with an inserted cell is. -/
theorem mem_insertCell (m : Memory) (k : Nat) (v : Byte) (c : Host.Cell) :
    c ∈ insertCell k v m ↔ c = (k, v) ∨ c ∈ m := by
  induction m with
  | nil => simp [insertCell]
  | cons d rest ih =>
    simp only [insertCell]
    split
    · simp
    · simp only [List.mem_cons, ih]
      tauto

/-- Inserting a new key keeps the keys strictly rising. -/
theorem pairwise_insertCell (m : Memory) (k : Nat) (v : Byte)
    (hm : m.Pairwise (fun x y => x.1 < y.1)) (hk : ∀ c ∈ m, c.1 ≠ k) :
    (insertCell k v m).Pairwise (fun x y => x.1 < y.1) := by
  induction m with
  | nil => simp [insertCell]
  | cons d rest ih =>
    obtain ⟨hd, hrest⟩ := List.pairwise_cons.mp hm
    obtain ⟨hkd, hkrest⟩ := List.forall_mem_cons.mp hk
    simp only [insertCell]
    split
    · rename_i hlt
      refine List.pairwise_cons.mpr ⟨?_, hm⟩
      intro c hc
      rcases List.mem_cons.mp hc with rfl | hc
      · exact hlt
      · exact hlt.trans (hd c hc)
    · refine List.pairwise_cons.mpr ⟨?_, ih hrest hkrest⟩
      intro c hc
      rcases (mem_insertCell rest k v c).mp hc with rfl | hc
      · simp only; omega
      · exact hd c hc

/-- Writing a byte inside the address space keeps the canonical form. -/
theorem setByte_wf (m : Memory) (k : Nat) (v : Byte) (hm : m.wf) (hk : k < 2 * 65536) :
    (setByte m k v).wf := by
  obtain ⟨hsort, hcells⟩ := hm
  have hsort' := hsort.filter (fun c => c.1 != k)
  have hcells' : ∀ c ∈ m.filter (fun c => c.1 != k), c.1 < 2 * 65536 ∧ c.2 ≠ unlistedByte :=
    fun c hc => hcells c (List.mem_of_mem_filter hc)
  by_cases hv : v = unlistedByte
  · simp only [setByte, hv, if_true]
    exact ⟨hsort', hcells'⟩
  · simp only [setByte, hv, if_false]
    refine ⟨pairwise_insertCell _ k v hsort' (by simp), ?_⟩
    intro c hc
    rcases (mem_insertCell _ k v c).mp hc with rfl | hc
    · exact ⟨hk, hv⟩
    · exact hcells' c hc

/-- Writing a Word keeps the canonical form. -/
theorem writeWord_wf (m : Memory) (a v : Word) (hm : m.wf) : (writeWord m a v).wf := by
  have ha := a.isLt
  exact setByte_wf _ _ _ (setByte_wf _ _ _ hm (by omega)) (by omega)

/-- The empty memory has the canonical form. -/
theorem nil_wf : Memory.wf [] := by decide

end Sys2Proof.Machine
end

