-- ==== Sys2Proof/Laws/State.lean ====
section
/-! SUPPORT. Each state update, field by field; then what each update does to the register and memory
reads. Later proofs need not unfold a record update. -/

namespace Sys2Proof.Machine

variable (s : State)

/-! ### setReg -/

@[simp] theorem State.setReg_regs (r : RegNum) (v : Word) : (s.setReg r v).regs = s.regs.set r.toNat v r.isLt := rfl
@[simp] theorem State.setReg_pc (r : RegNum) (v : Word) : (s.setReg r v).pc = s.pc := rfl
@[simp] theorem State.setReg_cond (r : RegNum) (v : Word) : (s.setReg r v).cond = s.cond := rfl
@[simp] theorem State.setReg_run (r : RegNum) (v : Word) : (s.setReg r v).run = s.run := rfl
@[simp] theorem State.setReg_mem (r : RegNum) (v : Word) : (s.setReg r v).mem = s.mem := rfl
@[simp] theorem State.setReg_input (r : RegNum) (v : Word) : (s.setReg r v).input = s.input := rfl
@[simp] theorem State.setReg_output (r : RegNum) (v : Word) : (s.setReg r v).output = s.output := rfl
@[simp] theorem State.setReg_params (r : RegNum) (v : Word) : (s.setReg r v).params = s.params := rfl
@[simp] theorem State.setReg_draws (r : RegNum) (v : Word) : (s.setReg r v).draws = s.draws := rfl
@[simp] theorem State.setReg_polls (r : RegNum) (v : Word) : (s.setReg r v).polls = s.polls := rfl

/-! ### setPc -/

@[simp] theorem State.setPc_regs (v : Word) : (s.setPc v).regs = s.regs := rfl
@[simp] theorem State.setPc_pc (v : Word) : (s.setPc v).pc = v := rfl
@[simp] theorem State.setPc_cond (v : Word) : (s.setPc v).cond = s.cond := rfl
@[simp] theorem State.setPc_run (v : Word) : (s.setPc v).run = s.run := rfl
@[simp] theorem State.setPc_mem (v : Word) : (s.setPc v).mem = s.mem := rfl
@[simp] theorem State.setPc_input (v : Word) : (s.setPc v).input = s.input := rfl
@[simp] theorem State.setPc_output (v : Word) : (s.setPc v).output = s.output := rfl
@[simp] theorem State.setPc_params (v : Word) : (s.setPc v).params = s.params := rfl
@[simp] theorem State.setPc_draws (v : Word) : (s.setPc v).draws = s.draws := rfl
@[simp] theorem State.setPc_polls (v : Word) : (s.setPc v).polls = s.polls := rfl

/-! ### store -/

@[simp] theorem State.store_regs (a v : Word) : (s.store a v).regs = s.regs := rfl
@[simp] theorem State.store_pc (a v : Word) : (s.store a v).pc = s.pc := rfl
@[simp] theorem State.store_cond (a v : Word) : (s.store a v).cond = s.cond := rfl
@[simp] theorem State.store_run (a v : Word) : (s.store a v).run = s.run := rfl
@[simp] theorem State.store_mem (a v : Word) : (s.store a v).mem = writeWord s.mem a v := rfl
@[simp] theorem State.store_input (a v : Word) : (s.store a v).input = s.input := rfl
@[simp] theorem State.store_output (a v : Word) : (s.store a v).output = s.output := rfl
@[simp] theorem State.store_params (a v : Word) : (s.store a v).params = s.params := rfl
@[simp] theorem State.store_draws (a v : Word) : (s.store a v).draws = s.draws := rfl
@[simp] theorem State.store_polls (a v : Word) : (s.store a v).polls = s.polls := rfl

/-! ### emit -/

@[simp] theorem State.emit_regs (bs : List Byte) : (s.emit bs).regs = s.regs := rfl
@[simp] theorem State.emit_pc (bs : List Byte) : (s.emit bs).pc = s.pc := rfl
@[simp] theorem State.emit_cond (bs : List Byte) : (s.emit bs).cond = s.cond := rfl
@[simp] theorem State.emit_run (bs : List Byte) : (s.emit bs).run = s.run := rfl
@[simp] theorem State.emit_mem (bs : List Byte) : (s.emit bs).mem = s.mem := rfl
@[simp] theorem State.emit_input (bs : List Byte) : (s.emit bs).input = s.input := rfl
@[simp] theorem State.emit_output (bs : List Byte) : (s.emit bs).output = s.output ++ bs := rfl
@[simp] theorem State.emit_params (bs : List Byte) : (s.emit bs).params = s.params := rfl
@[simp] theorem State.emit_draws (bs : List Byte) : (s.emit bs).draws = s.draws := rfl
@[simp] theorem State.emit_polls (bs : List Byte) : (s.emit bs).polls = s.polls := rfl

/-! ### supply -/

@[simp] theorem State.supply_regs (cs : List Byte) : (s.supply cs).regs = s.regs := rfl
@[simp] theorem State.supply_pc (cs : List Byte) : (s.supply cs).pc = s.pc := rfl
@[simp] theorem State.supply_cond (cs : List Byte) : (s.supply cs).cond = s.cond := rfl
@[simp] theorem State.supply_run (cs : List Byte) : (s.supply cs).run = s.run := rfl
@[simp] theorem State.supply_mem (cs : List Byte) : (s.supply cs).mem = s.mem := rfl
@[simp] theorem State.supply_input (cs : List Byte) : (s.supply cs).input = s.input ++ cs := rfl
@[simp] theorem State.supply_output (cs : List Byte) : (s.supply cs).output = s.output := rfl
@[simp] theorem State.supply_params (cs : List Byte) : (s.supply cs).params = s.params := rfl
@[simp] theorem State.supply_draws (cs : List Byte) : (s.supply cs).draws = s.draws := rfl
@[simp] theorem State.supply_polls (cs : List Byte) : (s.supply cs).polls = s.polls := rfl

/-! ### setInput -/

@[simp] theorem State.setInput_regs (rest : List Byte) : (s.setInput rest).regs = s.regs := rfl
@[simp] theorem State.setInput_pc (rest : List Byte) : (s.setInput rest).pc = s.pc := rfl
@[simp] theorem State.setInput_cond (rest : List Byte) : (s.setInput rest).cond = s.cond := rfl
@[simp] theorem State.setInput_run (rest : List Byte) : (s.setInput rest).run = s.run := rfl
@[simp] theorem State.setInput_mem (rest : List Byte) : (s.setInput rest).mem = s.mem := rfl
@[simp] theorem State.setInput_input (rest : List Byte) : (s.setInput rest).input = rest := rfl
@[simp] theorem State.setInput_output (rest : List Byte) : (s.setInput rest).output = s.output := rfl
@[simp] theorem State.setInput_params (rest : List Byte) : (s.setInput rest).params = s.params := rfl
@[simp] theorem State.setInput_draws (rest : List Byte) : (s.setInput rest).draws = s.draws := rfl
@[simp] theorem State.setInput_polls (rest : List Byte) : (s.setInput rest).polls = s.polls := rfl

/-! ### halt -/

@[simp] theorem State.halt_regs : (s.halt).regs = s.regs := rfl
@[simp] theorem State.halt_pc : (s.halt).pc = s.pc := rfl
@[simp] theorem State.halt_cond : (s.halt).cond = s.cond := rfl
@[simp] theorem State.halt_run : (s.halt).run = .halted := rfl
@[simp] theorem State.halt_mem : (s.halt).mem = s.mem := rfl
@[simp] theorem State.halt_input : (s.halt).input = s.input := rfl
@[simp] theorem State.halt_output : (s.halt).output = s.output := rfl
@[simp] theorem State.halt_params : (s.halt).params = s.params := rfl
@[simp] theorem State.halt_draws : (s.halt).draws = s.draws := rfl
@[simp] theorem State.halt_polls : (s.halt).polls = s.polls := rfl

/-! ### advanceDraws -/

@[simp] theorem State.advanceDraws_regs : (s.advanceDraws).regs = s.regs := rfl
@[simp] theorem State.advanceDraws_pc : (s.advanceDraws).pc = s.pc := rfl
@[simp] theorem State.advanceDraws_cond : (s.advanceDraws).cond = s.cond := rfl
@[simp] theorem State.advanceDraws_run : (s.advanceDraws).run = s.run := rfl
@[simp] theorem State.advanceDraws_mem : (s.advanceDraws).mem = s.mem := rfl
@[simp] theorem State.advanceDraws_input : (s.advanceDraws).input = s.input := rfl
@[simp] theorem State.advanceDraws_output : (s.advanceDraws).output = s.output := rfl
@[simp] theorem State.advanceDraws_params : (s.advanceDraws).params = s.params := rfl
@[simp] theorem State.advanceDraws_draws : (s.advanceDraws).draws = s.draws.tail := rfl
@[simp] theorem State.advanceDraws_polls : (s.advanceDraws).polls = s.polls + 1 := rfl

/-! ### setcc -/

@[simp] theorem State.setcc_regs (v : Word) : (s.setcc v).regs = s.regs := rfl
@[simp] theorem State.setcc_pc (v : Word) : (s.setcc v).pc = s.pc := rfl
@[simp] theorem State.setcc_cond (v : Word) : (s.setcc v).cond = condFor s.params.condEnc v := rfl
@[simp] theorem State.setcc_run (v : Word) : (s.setcc v).run = s.run := rfl
@[simp] theorem State.setcc_mem (v : Word) : (s.setcc v).mem = s.mem := rfl
@[simp] theorem State.setcc_input (v : Word) : (s.setcc v).input = s.input := rfl
@[simp] theorem State.setcc_output (v : Word) : (s.setcc v).output = s.output := rfl
@[simp] theorem State.setcc_params (v : Word) : (s.setcc v).params = s.params := rfl
@[simp] theorem State.setcc_draws (v : Word) : (s.setcc v).draws = s.draws := rfl
@[simp] theorem State.setcc_polls (v : Word) : (s.setcc v).polls = s.polls := rfl

/-! ### writeback -/

@[simp] theorem State.writeback_regs (r : RegNum) (v : Word) : (s.writeback r v).regs = s.regs.set r.toNat v r.isLt := rfl
@[simp] theorem State.writeback_pc (r : RegNum) (v : Word) : (s.writeback r v).pc = s.pc := rfl
@[simp] theorem State.writeback_cond (r : RegNum) (v : Word) : (s.writeback r v).cond = condFor s.params.condEnc v := rfl
@[simp] theorem State.writeback_run (r : RegNum) (v : Word) : (s.writeback r v).run = s.run := rfl
@[simp] theorem State.writeback_mem (r : RegNum) (v : Word) : (s.writeback r v).mem = s.mem := rfl
@[simp] theorem State.writeback_input (r : RegNum) (v : Word) : (s.writeback r v).input = s.input := rfl
@[simp] theorem State.writeback_output (r : RegNum) (v : Word) : (s.writeback r v).output = s.output := rfl
@[simp] theorem State.writeback_params (r : RegNum) (v : Word) : (s.writeback r v).params = s.params := rfl
@[simp] theorem State.writeback_draws (r : RegNum) (v : Word) : (s.writeback r v).draws = s.draws := rfl
@[simp] theorem State.writeback_polls (r : RegNum) (v : Word) : (s.writeback r v).polls = s.polls := rfl

/-! ### Register reads -/

/-- A register read after a register write. -/
@[simp] theorem State.reg_setReg (r q : RegNum) (v : Word) :
    (s.setReg r v).reg q = if q = r then v else s.reg q := by
  simp only [State.reg, State.setReg, Vector.getElem_set, BitVec.toNat_eq, eq_comm]

/-- A register read after a writeback. -/
@[simp] theorem State.reg_writeback (r q : RegNum) (v : Word) :
    (s.writeback r v).reg q = if q = r then v else s.reg q :=
  s.reg_setReg r q v

/-- Every register reads zero after reset. -/
@[simp] theorem State.reg_resetWith (p : Params) (r : RegNum) : (State.resetWith p).reg r = 0 := by
  simp [State.reg, State.resetWith]

@[simp] theorem State.reg_setPc (v : Word) (q : RegNum) : (s.setPc v).reg q = s.reg q := rfl
@[simp] theorem State.reg_store (a v : Word) (q : RegNum) : (s.store a v).reg q = s.reg q := rfl
@[simp] theorem State.reg_emit (bs : List Byte) (q : RegNum) : (s.emit bs).reg q = s.reg q := rfl
@[simp] theorem State.reg_supply (cs : List Byte) (q : RegNum) : (s.supply cs).reg q = s.reg q := rfl
@[simp] theorem State.reg_setInput (rest : List Byte) (q : RegNum) : (s.setInput rest).reg q = s.reg q := rfl
@[simp] theorem State.reg_halt (q : RegNum) : (s.halt).reg q = s.reg q := rfl
@[simp] theorem State.reg_advanceDraws (q : RegNum) : (s.advanceDraws).reg q = s.reg q := rfl
@[simp] theorem State.reg_setcc (v : Word) (q : RegNum) : (s.setcc v).reg q = s.reg q := rfl

/-! ### Memory reads -/

/-- A Word read after a store: the stored Word at its address, every other Word as before. -/
@[simp] theorem State.word_store (a b v : Word) :
    (s.store a v).word b = if b = a then v else s.word b :=
  readWord_writeWord s.mem a b v

/-- Every Word reads zero after reset. -/
@[simp] theorem State.word_resetWith (p : Params) (a : Word) : (State.resetWith p).word a = 0 :=
  show unlistedByte ++ unlistedByte = (0 : Word) by decide

@[simp] theorem State.word_setReg (r : RegNum) (v : Word) (b : Word) : (s.setReg r v).word b = s.word b := rfl
@[simp] theorem State.word_setPc (v : Word) (b : Word) : (s.setPc v).word b = s.word b := rfl
@[simp] theorem State.word_emit (bs : List Byte) (b : Word) : (s.emit bs).word b = s.word b := rfl
@[simp] theorem State.word_supply (cs : List Byte) (b : Word) : (s.supply cs).word b = s.word b := rfl
@[simp] theorem State.word_setInput (rest : List Byte) (b : Word) : (s.setInput rest).word b = s.word b := rfl
@[simp] theorem State.word_halt (b : Word) : (s.halt).word b = s.word b := rfl
@[simp] theorem State.word_advanceDraws (b : Word) : (s.advanceDraws).word b = s.word b := rfl
@[simp] theorem State.word_setcc (v : Word) (b : Word) : (s.setcc v).word b = s.word b := rfl
@[simp] theorem State.word_writeback (r : RegNum) (v : Word) (b : Word) : (s.writeback r v).word b = s.word b := rfl

end Sys2Proof.Machine
end

