-- ==== Sys2Proof/Laws/Ops.lean ====
section
/-! SUPPORT. What each shared operation can do, said once: the keyboard poll, the datapath read, the
fetch, the flags, the trap entry, the string scan. -/

namespace Sys2Proof.Machine

variable {s t : State}

/-! ### The keyboard poll -/

/-- A poll with nothing pending, or whose draw is not taken, clears the status cell. -/
theorem poll_not_taken (h : s.input = [] ∨ s.nextDraw = false) :
    poll s = s.advanceDraws.store s.params.kbsrAddr 0x0000 := by
  unfold poll inPoll
  cases hi : s.input with
  | nil => rfl
  | cons c rest => rcases h with h | h <;> simp_all

/-- A poll that takes the first pending character writes both device cells. -/
theorem poll_taken {c : Byte} {rest : List Byte} (hi : s.input = c :: rest)
    (hd : s.nextDraw = true) :
    poll s = ((s.advanceDraws.setInput rest).store s.params.kbsrAddr s.params.kbsrReady).store
      s.params.kbdrAddr (zext c) := by
  simp only [poll, inPoll, hi, hd, if_true]
  rfl

/-- A poll is taken or not taken. -/
theorem poll_cases (s : State) :
    (s.input = [] ∨ s.nextDraw = false) ∨ ∃ c rest, s.input = c :: rest ∧ s.nextDraw = true := by
  cases hi : s.input with
  | nil => simp
  | cons c rest => cases s.nextDraw <;> simp

/-- What a datapath read, polling or not, leaves alone, and what it keeps. -/
structure ReadFrame (s t : State) : Prop where
  regs : t.regs = s.regs
  pc : t.pc = s.pc
  cond : t.cond = s.cond
  run : t.run = s.run
  output : t.output = s.output
  params : t.params = s.params
  input : t.input <:+ s.input
  word : ∀ a, a ≠ s.params.kbsrAddr → a ≠ s.params.kbdrAddr → t.word a = s.word a
  mem_wf : s.mem.wf → t.mem.wf

theorem ReadFrame.refl (s : State) : ReadFrame s s :=
  ⟨rfl, rfl, rfl, rfl, rfl, rfl, List.suffix_refl _, fun _ _ _ => rfl, id⟩

/-- Everything a poll leaves alone. -/
theorem poll_frame (s : State) : ReadFrame s (poll s) := by
  rcases poll_cases s with h | ⟨c, rest, hi, hd⟩
  · rw [poll_not_taken h]
    exact ⟨rfl, rfl, rfl, rfl, rfl, rfl, List.suffix_refl _, by intro a h1 _; simp [h1],
      fun hm => writeWord_wf s.mem s.params.kbsrAddr 0x0000 hm⟩
  · rw [poll_taken hi hd]
    refine ⟨rfl, rfl, rfl, rfl, rfl, rfl, ?_, ?_,
      fun hm => show Memory.wf (writeWord (writeWord s.mem _ _) _ _) from
        writeWord_wf _ _ _ (writeWord_wf _ _ _ hm)⟩
    · simp [hi]
    · intro a h1 h2
      rw [State.word_store, if_neg h2, State.word_store, if_neg h1]
      rfl

/-! ### Datapath reads and the fetch -/

/-- Away from KBSR_ADDR a datapath read is a plain read. -/
theorem memRead_of_ne {a : Word} (h : a ≠ s.params.kbsrAddr) : memRead s a = (s.word a, s) := by
  have hclass : classOf s.params a ≠ .kbsr := by
    unfold classOf
    rw [if_neg h]
    split <;> simp
  unfold memRead
  split <;> first | rfl | contradiction

/-- At KBSR_ADDR a datapath read polls first. -/
theorem memRead_kbsr (s : State) :
    memRead s s.params.kbsrAddr = ((poll s).word s.params.kbsrAddr, poll s) := by
  simp [memRead, classOf]

/-- Everything a datapath read leaves alone. -/
theorem memRead_frame (s : State) (a : Word) : ReadFrame s (memRead s a).2 := by
  by_cases h : a = s.params.kbsrAddr
  · subst h; rw [memRead_kbsr]; exact poll_frame s
  · rw [memRead_of_ne h]; exact .refl s

/-- A frame keeps every register read. -/
theorem ReadFrame.reg (h : ReadFrame s t) (r : RegNum) : t.reg r = s.reg r := by
  simp only [State.reg, h.regs]

/-- The fetch, in terms of the datapath read. -/
@[simp] theorem fetch_fst (s : State) : (fetch s).1 = (memRead s s.pc).1 := rfl

@[simp] theorem fetch_snd (s : State) :
    (fetch s).2 = (memRead s s.pc).2.setPc (s.pc + 1) := rfl

/-! ### Flags -/

/-- The flag of a Word is one of the three values. -/
theorem condFor_legal (e : CondEnc) (v : Word) :
    condFor e v = e.n ∨ condFor e v = e.z ∨ condFor e v = e.p := by
  unfold condFor
  split
  · simp
  · split <;> simp

/-! ### Trap services -/

/-- The trap entry is a write of R7 or nothing. -/
theorem trapEntry_cases (s : State) :
    (s.params.trapWritesR7 = true ∧ trapEntry s = s.setReg 7 s.pc) ∨
    (s.params.trapWritesR7 = false ∧ trapEntry s = s) := by
  unfold trapEntry linkReg
  cases s.params.trapWritesR7 <;> simp

/-- Register r after the trap entry. -/
@[simp] theorem reg_trapEntry (s : State) (r : RegNum) :
    (trapEntry s).reg r = if s.params.trapWritesR7 ∧ r = 7 then s.pc else s.reg r := by
  rcases trapEntry_cases s with ⟨h, e⟩ | ⟨h, e⟩ <;> simp [h, e]

@[simp] theorem trapEntry_pc (s : State) : (trapEntry s).pc = s.pc := by
  rcases trapEntry_cases s with ⟨_, e⟩ | ⟨_, e⟩ <;> simp [e]
@[simp] theorem trapEntry_cond (s : State) : (trapEntry s).cond = s.cond := by
  rcases trapEntry_cases s with ⟨_, e⟩ | ⟨_, e⟩ <;> simp [e]
@[simp] theorem trapEntry_run (s : State) : (trapEntry s).run = s.run := by
  rcases trapEntry_cases s with ⟨_, e⟩ | ⟨_, e⟩ <;> simp [e]
@[simp] theorem trapEntry_mem (s : State) : (trapEntry s).mem = s.mem := by
  rcases trapEntry_cases s with ⟨_, e⟩ | ⟨_, e⟩ <;> simp [e]
@[simp] theorem trapEntry_input (s : State) : (trapEntry s).input = s.input := by
  rcases trapEntry_cases s with ⟨_, e⟩ | ⟨_, e⟩ <;> simp [e]
@[simp] theorem trapEntry_output (s : State) : (trapEntry s).output = s.output := by
  rcases trapEntry_cases s with ⟨_, e⟩ | ⟨_, e⟩ <;> simp [e]
@[simp] theorem trapEntry_params (s : State) : (trapEntry s).params = s.params := by
  rcases trapEntry_cases s with ⟨_, e⟩ | ⟨_, e⟩ <;> simp [e]
@[simp] theorem trapEntry_draws (s : State) : (trapEntry s).draws = s.draws := by
  rcases trapEntry_cases s with ⟨_, e⟩ | ⟨_, e⟩ <;> simp [e]
@[simp] theorem trapEntry_polls (s : State) : (trapEntry s).polls = s.polls := by
  rcases trapEntry_cases s with ⟨_, e⟩ | ⟨_, e⟩ <;> simp [e]
@[simp] theorem word_trapEntry (s : State) (a : Word) : (trapEntry s).word a = s.word a := by
  simp [State.word]

/-- The Words a string scan reads from `a`: none of them zero, and after them a zero Word or the top of
the address space. -/
structure IsScan (m : Memory) (a : Word) (n : Nat) : Prop where
  inside : ∀ k < n, a.toNat + k ≤ 0xFFFF ∧ readWord m (a + BitVec.ofNat 16 k) ≠ 0x0000
  stops : a.toNat + n = 0x10000 ∨
    (a.toNat + n ≤ 0xFFFF ∧ readWord m (a + BitVec.ofNat 16 n) = 0x0000)

/-- Every scan with enough fuel reads some such run of Words and gives their bytes in order. -/
theorem scanString_spec (chars : Word → List Byte) (m : Memory) :
    ∀ (fuel : Nat) (a : Word), 0x10000 - a.toNat ≤ fuel → ∃ n, IsScan m a n ∧
      scanString chars m fuel a =
        (List.range n).flatMap (fun k => chars (readWord m (a + BitVec.ofNat 16 k))) := by
  intro fuel
  induction fuel with
  | zero => intro a h; have := a.isLt; omega
  | succ fuel ih =>
    intro a h
    by_cases hz : readWord m a = 0x0000
    · refine ⟨0, ⟨by simp, Or.inr ⟨by have := a.isLt; omega, by simpa using hz⟩⟩, ?_⟩
      simp [scanString, hz]
    by_cases htop : a = 0xFFFF
    · subst htop
      refine ⟨1, ⟨?_, Or.inl (by decide)⟩, ?_⟩
      · intro k hk
        obtain rfl : k = 0 := by omega
        exact ⟨by decide, by simpa using hz⟩
      · have hz' : ¬readWord m 65535#16 = 0#16 := hz
        simp [scanString, hz']
    have hlt : a.toNat < 0xFFFF := by
      have hne : a.toNat ≠ 0xFFFF := fun e => htop (BitVec.eq_of_toNat_eq (by simpa using e))
      have := a.isLt
      omega
    have hstep : (a + 1).toNat = a.toNat + 1 := by
      rw [BitVec.toNat_add]; simp; omega
    have hshift : ∀ k, a + 1 + BitVec.ofNat 16 k = a + BitVec.ofNat 16 (k + 1) := by
      intro k
      rw [BitVec.add_assoc]
      congr 1
      apply BitVec.eq_of_toNat_eq
      simp [Nat.add_comm]
    obtain ⟨n, hn, e⟩ := ih (a + 1) (by omega)
    refine ⟨n + 1, ⟨?_, ?_⟩, ?_⟩
    · intro k hk
      cases k with
      | zero => exact ⟨by omega, by simpa using hz⟩
      | succ k =>
        obtain ⟨h1, h2⟩ := hn.inside k (by omega)
        rw [hshift] at h2
        exact ⟨by omega, h2⟩
    · rcases hn.stops with h1 | ⟨h1, h2⟩
      · exact Or.inl (by omega)
      · rw [hshift] at h2
        exact Or.inr ⟨by omega, h2⟩
    · simp only [scanString, hz, htop, if_false, e, hshift, List.range_succ_eq_map]
      simp [List.flatMap_map]

end Sys2Proof.Machine
end

