-- ==== Sys2Proof/Laws/Exec.lean ====
section
/-! SUPPORT. What every instruction, the fetch and every step keep, said once for all instructions, and
how a run takes its first step. -/

namespace Sys2Proof.Machine

variable {s t u : State}

/-! ### What every instruction keeps -/

/-- What holds between the state before and the state after any instruction or any step, whether it goes
on or stops. -/
structure Kept (s t : State) : Prop where
  params : t.params = s.params
  mem_wf : s.mem.wf → t.mem.wf
  cond : t.cond = s.cond ∨ ∃ v, t.cond = condFor s.params.condEnc v
  output : s.output <+: t.output
  input : t.input <:+ s.input

theorem Kept.refl (s : State) : Kept s s :=
  ⟨rfl, id, .inl rfl, List.prefix_refl _, List.suffix_refl _⟩

theorem Kept.trans (h : Kept s t) (g : Kept t u) : Kept s u := by
  refine ⟨g.params.trans h.params, g.mem_wf ∘ h.mem_wf, ?_, h.output.trans g.output,
    g.input.trans h.input⟩
  rcases g.cond with e | ⟨v, e⟩
  · rw [e]; exact h.cond
  · exact .inr ⟨v, by rw [e, h.params]⟩

theorem ReadFrame.kept (h : ReadFrame s t) : Kept s t :=
  ⟨h.params, h.mem_wf, .inl h.cond, by rw [h.output], h.input⟩

theorem Kept.setReg (s : State) (r : RegNum) (v : Word) : Kept s (s.setReg r v) :=
  ⟨rfl, id, .inl rfl, List.prefix_refl _, List.suffix_refl _⟩

theorem Kept.writeback (s : State) (r : RegNum) (v : Word) : Kept s (s.writeback r v) :=
  ⟨rfl, id, .inr ⟨v, rfl⟩, List.prefix_refl _, List.suffix_refl _⟩

theorem Kept.store (s : State) (a v : Word) : Kept s (s.store a v) :=
  ⟨rfl, fun h => writeWord_wf s.mem a v h, .inl rfl, List.prefix_refl _, List.suffix_refl _⟩

theorem Kept.setPc (s : State) (v : Word) : Kept s (s.setPc v) :=
  ⟨rfl, id, .inl rfl, List.prefix_refl _, List.suffix_refl _⟩

theorem Kept.emit (s : State) (bs : List Byte) : Kept s (s.emit bs) :=
  ⟨rfl, id, .inl rfl, List.prefix_append _ _, List.suffix_refl _⟩

theorem Kept.halt (s : State) : Kept s s.halt :=
  ⟨rfl, id, .inl rfl, List.prefix_refl _, List.suffix_refl _⟩

theorem Kept.trapEntry (s : State) : Kept s (trapEntry s) := by
  rcases trapEntry_cases s with ⟨_, e⟩ | ⟨_, e⟩ <;> rw [e]
  · exact .setReg _ _ _
  · exact .refl _

/-- A character that InGet gives was the first one pending. -/
theorem inGet_some {c : Byte} (h : inGet s = some (c, t)) :
    s.input = c :: t.input ∧ t = s.setInput t.input := by
  unfold inGet at h
  cases hi : s.input with
  | nil => simp [hi] at h
  | cons d rest =>
    simp only [hi, Option.some.injEq, Prod.mk.injEq] at h
    obtain ⟨rfl, rfl⟩ := h
    simp

theorem Kept.inGet {c : Byte} (h : inGet s = some (c, t)) : Kept s t := by
  obtain ⟨h1, h2⟩ := inGet_some h
  rw [h2]
  exact ⟨rfl, id, .inl rfl, List.prefix_refl _, by simp [h1]⟩

/-- An outcome that keeps what every instruction keeps, in its next state or in the state at its stop,
and that is no refusal. -/
def Ends (s : State) : Host.Outcome State Fault Refusal → Prop
  | .next t => Kept s t
  | .fault f => Kept s f.state
  | .refused _ => False

theorem execTrapGetc_ends (s : State) : Ends s (execTrapGetc s) := by
  unfold execTrapGetc
  cases h : inGet (trapEntry s) with
  | none => exact .trapEntry s
  | some q => exact ((Kept.trapEntry s).trans (.inGet h)).trans (.setReg _ _ _)

theorem execTrapIn_ends (s : State) : Ends s (execTrapIn s) := by
  unfold execTrapIn
  cases h : inGet ((trapEntry s).emit s.params.inPrompt) with
  | none => exact (Kept.trapEntry s).trans (.emit _ _)
  | some q =>
    exact (((Kept.trapEntry s).trans (.emit _ _)).trans (.inGet h)).trans
      ((Kept.emit _ _).trans (.writeback _ _ _))

/-- A service that writes bytes only. -/
theorem Kept.service (s : State) (bs : List Byte) : Kept s ((Machine.trapEntry s).emit bs) :=
  (Kept.trapEntry s).trans (.emit _ _)

theorem execTrap_ends (ignored : BitVec 4) (v : BitVec 8) (s : State) :
    Ends s (execTrap ignored v s) := by
  unfold execTrap
  split
  · exact execTrapGetc_ends s
  split
  · exact .service s _
  split
  · exact .service s _
  split
  · exact execTrapIn_ends s
  split
  · exact .service s _
  split
  · exact (Kept.service s _).trans (.halt _)
  split <;> exact .refl s

/-- Every instruction keeps it, from every state; none is refused. -/
theorem exec_ends (i : Instr) (s : State) : Ends s (exec i s) := by
  cases i with
  | br nzp off => show Kept s _; split; exacts [.setPc _ _, .refl _]
  | addReg => exact .writeback _ _ _
  | addImm => exact .writeback _ _ _
  | andReg => exact .writeback _ _ _
  | andImm => exact .writeback _ _ _
  | not => exact .writeback _ _ _
  | lea => exact .writeback _ _ _
  | ld => exact (memRead_frame _ _).kept.trans (.writeback _ _ _)
  | ldr => exact (memRead_frame _ _).kept.trans (.writeback _ _ _)
  | ldi =>
    exact ((memRead_frame _ _).kept.trans (memRead_frame _ _).kept).trans (.writeback _ _ _)
  | st => exact .store _ _ _
  | str => exact .store _ _ _
  | sti => exact (memRead_frame _ _).kept.trans (.store _ _ _)
  | jmp => exact .setPc _ _
  | jsr => exact (Kept.setReg _ _ _).trans (.setPc _ _)
  | jsrr => show Kept s _; split <;> exact (Kept.setReg _ _ _).trans (.setPc _ _)
  | reserved8 => exact .refl s
  | reservedD => exact .refl s
  | trapGetc => exact execTrapGetc_ends s
  | trapOut => exact .service s _
  | trapPuts => exact .service s _
  | trapIn => exact execTrapIn_ends s
  | trapPutsp => exact .service s _
  | trapHalt => exact (Kept.service s _).trans (.halt _)
  | trap ignored v => exact execTrap_ends ignored v s

/-! ### Steps -/

theorem fetch_kept (s : State) : Kept s (fetch s).2 :=
  (memRead_frame s s.pc).kept.trans (.setPc _ _)

/-- A step of a running machine. -/
theorem step_running (h : s.run = .running) :
    step s = exec (decode s.params (fetch s).1) (fetch s).2 := by
  simp [step, h]

/-- A halted machine takes no step. -/
theorem step_halted (h : s.run = .halted) : step s = .refused .halted := by
  simp [step, h]

/-- Every step of a running machine keeps what every instruction keeps. -/
theorem step_ends (h : s.run = .running) : Ends s (step s) := by
  rw [step_running h]
  have hends := exec_ends (decode s.params (fetch s).1) (fetch s).2
  revert hends
  cases exec (decode s.params (fetch s).1) (fetch s).2 with
  | next t => exact (fetch_kept s).trans
  | fault f => exact (fetch_kept s).trans
  | refused r => exact id

/-- A step that has a next state was a step of a running machine. -/
theorem step_next (h : step s = .next t) :
    s.run = .running ∧ exec (decode s.params (fetch s).1) (fetch s).2 = .next t := by
  cases hr : s.run with
  | running => exact ⟨rfl, step_running hr ▸ h⟩
  | halted => rw [step_halted hr] at h; cases h

/-! ### Runs -/

theorem run_succ_next (M : Host.Core) {s t : M.State} (k : Nat) (h : M.step s = .next t) :
    M.run (k + 1) s = M.run k t := by
  rw [Host.Core.run, h]

theorem run_succ_fault (M : Host.Core) {s : M.State} {f : M.Fault} (k : Nat)
    (h : M.step s = .fault f) : M.run (k + 1) s = .fault f := by
  rw [Host.Core.run, h]

theorem run_succ_refused (M : Host.Core) {s : M.State} {r : M.Refusal} (k : Nat)
    (h : M.step s = .refused r) : M.run (k + 1) s = .refused r := by
  rw [Host.Core.run, h]

end Sys2Proof.Machine
end

