-- ==== Sys2Proof/Laws/Flags.lean ====
section
/-! SUPPORT. The flags: what the limits on COND_ENC give, and BR's mask. -/

namespace Sys2Proof.Machine

/-- The limits on the parameters include those on COND_ENC. -/
theorem condEnc_wf {p : Params} (h : p.wf = true) : p.condEnc.wf = true :=
  ((Params.wf_iff p).mp h).2.2.1

/-- The flag values of a COND_ENC within its limits are single bits at three different places. -/
theorem exists_twoPow_of_wf {e : CondEnc} (h : e.wf = true) :
    ∃ i j k, i < 16 ∧ j < 16 ∧ k < 16 ∧ i ≠ j ∧ i ≠ k ∧ j ≠ k ∧
      e.p = BitVec.twoPow 16 i ∧ e.z = BitVec.twoPow 16 j ∧ e.n = BitVec.twoPow 16 k := by
  simp only [CondEnc.wf, List.all_cons, List.all_nil, Bool.and_true, Bool.and_eq_true,
    List.any_eq_true, List.mem_range, beq_iff_eq, decide_eq_true_eq] at h
  obtain ⟨⟨⟨i, hi, ei⟩, ⟨j, hj, ej⟩, ⟨k, hk, ek⟩⟩, hnodup⟩ := h
  simp only [List.nodup_cons, List.mem_cons, List.not_mem_nil, or_false, not_or] at hnodup
  refine ⟨i, j, k, hi, hj, hk, ?_, ?_, ?_, ei, ej, ek⟩
  · rintro rfl; exact hnodup.1.1 (ei.trans ej.symm)
  · rintro rfl; exact hnodup.1.2 (ei.trans ek.symm)
  · rintro rfl; exact hnodup.2.1 (ej.trans ek.symm)

/-- A single bit is not zero. -/
theorem twoPow_ne_zero {i : Nat} (hi : i < 16) : BitVec.twoPow 16 i ≠ 0#16 := by
  intro h
  have hbit := congrArg (fun v => v.getLsbD i) h
  simp [hi] at hbit

/-- Two single bits are the same at the same place only. -/
theorem twoPow_inj {i j : Nat} (hi : i < 16) : BitVec.twoPow 16 i = BitVec.twoPow 16 j ↔ i = j := by
  constructor
  · intro h
    have hbit := congrArg (fun v => v.getLsbD i) h
    simp [hi] at hbit
    exact hbit
  · rintro rfl; rfl

/-- Two single bits have a common bit exactly when they are the same. -/
theorem twoPow_and_twoPow (i j : Nat) :
    BitVec.twoPow 16 i &&& BitVec.twoPow 16 j = if i = j then BitVec.twoPow 16 i else 0#16 := by
  apply BitVec.eq_of_getLsbD_eq
  intro k hk
  rw [BitVec.getLsbD_and, BitVec.getLsbD_twoPow, BitVec.getLsbD_twoPow]
  split
  · rename_i h; subst h; simp [BitVec.getLsbD_twoPow]
  · rename_i h
    simp only [BitVec.getLsbD_zero]
    by_cases h1 : i = k
    · subst h1; simp [Ne.symm h]
    · simp [h1]

/-- A mask of several bits selects what each of them selects. -/
theorem or_and_word (a b c : Word) : (a ||| b) &&& c = a &&& c ||| b &&& c := by
  apply BitVec.eq_of_getLsbD_eq
  intro i hi
  simp [Bool.and_or_distrib_right]

/-- The empty mask selects nothing. -/
@[simp] theorem branchMask_zero (e : CondEnc) : branchMask e 0#3 = 0#16 := by
  simp [branchMask]

/-- Under the default COND_ENC BR's mask is `zext_3(cond)` (42_control.md R130). -/
theorem branchMask_default (nzp : BitVec 3) : branchMask defaultCondEnc nzp = zext nzp := by
  revert nzp
  decide

end Sys2Proof.Machine
end

