-- ==== Sys2Proof/Laws/Loader.lean ====
section
/-! SUPPORT. What placing an image does to memory, and how lists of images are loaded. -/

namespace Sys2Proof.Machine

/-- The address `o`, as a Word, is the address of that number. -/
theorem eq_ofNat_iff {a : Word} {o : Nat} (h : o < 65536) :
    a = BitVec.ofNat 16 o ↔ a.toNat = o := by
  constructor
  · rintro rfl
    simp only [BitVec.toNat_ofNat]
    omega
  · intro e
    apply BitVec.eq_of_toNat_eq
    simp only [BitVec.toNat_ofNat]
    omega

/-- Every Word of memory after `placeWords`: the payload's Word where it reaches, else the old one. -/
theorem readWord_placeWords : ∀ (b : List Byte) (o : Nat) (m : Memory) (a : Word),
    readWord (placeWords b o m) a =
      if o ≤ a.toNat ∧ a.toNat - o < b.length / 2 then
        b.getD (2 * (a.toNat - o)) 0 ++ b.getD (2 * (a.toNat - o) + 1) 0
      else readWord m a
  | [], o, m, a => by simp [placeWords]
  | [_], o, m, a => by simp [placeWords]
  | hi :: lo :: rest, o, m, a => by
    have ha := a.isLt
    unfold placeWords
    split
    · rename_i ho
      rw [readWord_placeWords rest (o + 1), readWord_writeWord]
      have he := eq_ofNat_iff (a := a) ho
      by_cases h1 : o + 1 ≤ a.toNat
      · obtain ⟨k, hk⟩ : ∃ k, a.toNat - o = k + 1 := ⟨a.toNat - o - 1, by omega⟩
        have hk2 : a.toNat - (o + 1) = k := by omega
        have hne : ¬a = BitVec.ofNat 16 o := by rw [he]; omega
        rw [hk, hk2]
        simp only [hne, if_false, List.length_cons]
        by_cases hc : k < rest.length / 2
        · rw [if_pos ⟨h1, hc⟩, if_pos ⟨by omega, by omega⟩]
          congr 1
        · rw [if_neg (fun h => hc h.2), if_neg (by omega)]
      · rw [if_neg (fun h => h1 h.1)]
        by_cases h2 : a.toNat = o
        · rw [if_pos (he.mpr h2), if_pos ⟨by omega, by simp only [List.length_cons]; omega⟩]
          simp [h2]
        · rw [if_neg (by rw [he]; exact h2), if_neg (by omega)]
    · rw [if_neg (by omega)]

/-- Placing an image keeps the canonical form. -/
theorem placeWords_wf : ∀ (b : List Byte) (o : Nat) (m : Memory), m.wf → (placeWords b o m).wf
  | [], _, _, hm => hm
  | [_], _, _, hm => hm
  | _ :: _ :: rest, _, _, hm => by
    unfold placeWords
    split
    · exact placeWords_wf rest _ _ (writeWord_wf _ _ _ hm)
    · exact hm

/-- Loading two lists of images one after the other. -/
theorem loadAll_append (xs ys : List ImageSource) (s : State) :
    loadAll (xs ++ ys) s =
      match loadAll xs s with
      | .ok t => loadAll ys t
      | .error e => .error e := by
  induction xs generalizing s with
  | nil => rfl
  | cons x xs ih =>
    simp only [List.cons_append, loadAll]
    cases load s x with
    | ok t => exact ih t
    | error e => rfl

end Sys2Proof.Machine
end

