-- ==== Sys2Proof/Laws/Operands.lean ====
section
/-! SUPPORT. Sign extension and the effective addresses as integers modulo 2^16. -/

namespace Sys2Proof.Machine

/-- A sum with a sign-extended field, as integers (00_scope.md R11, 40_operate.md R105). -/
theorem add_sext (a : Word) {n : Nat} (v : BitVec n) (h : n ≤ 16) :
    (((a + sext v).toNat : Nat) : Int) = (a.toNat + v.toInt) % 2 ^ 16 := by
  have h1 : (sext v).toInt = v.toInt := BitVec.toInt_signExtend_of_le h
  have h2 := BitVec.toInt_eq_toNat_bmod (sext v)
  rw [BitVec.toNat_add, ← h1, h2, Int.bmod_def]
  push_cast
  split <;> omega

end Sys2Proof.Machine
end

