-- ==== Sys2Proof/Laws/PerInstr.lean ====
section
/-! SUPPORT. The per-instruction family OpcodeField: the top four bits of an instruction's encoding read
as the instruction's own role in a well-formed OPCODE_MAP (30_encoding.md R61, R65). -/

namespace Sys2Proof.Laws.OpcodeField

/-- The opcode field of the encoding names the instruction's role. -/
def Statement (i : Instr) : Prop :=
  ∀ p : Params, p.wf = true → opcodeAt p (bitField (encode p i) 12 4) = i.opcode

theorem br (a : BitVec 3) (b : BitVec 9) : Statement (.br a b) :=
  fun p hp => opcodeAt_encode p hp _

theorem addReg (a : RegNum) (b : RegNum) (c : RegNum) : Statement (.addReg a b c) :=
  fun p hp => opcodeAt_encode p hp _

theorem addImm (a : RegNum) (b : RegNum) (c : BitVec 5) : Statement (.addImm a b c) :=
  fun p hp => opcodeAt_encode p hp _

theorem ld (a : RegNum) (b : BitVec 9) : Statement (.ld a b) :=
  fun p hp => opcodeAt_encode p hp _

theorem st (a : RegNum) (b : BitVec 9) : Statement (.st a b) :=
  fun p hp => opcodeAt_encode p hp _

theorem jsrr (a : RegNum) : Statement (.jsrr a) :=
  fun p hp => opcodeAt_encode p hp _

theorem jsr (a : BitVec 11) : Statement (.jsr a) :=
  fun p hp => opcodeAt_encode p hp _

theorem andReg (a : RegNum) (b : RegNum) (c : RegNum) : Statement (.andReg a b c) :=
  fun p hp => opcodeAt_encode p hp _

theorem andImm (a : RegNum) (b : RegNum) (c : BitVec 5) : Statement (.andImm a b c) :=
  fun p hp => opcodeAt_encode p hp _

theorem ldr (a : RegNum) (b : RegNum) (c : BitVec 6) : Statement (.ldr a b c) :=
  fun p hp => opcodeAt_encode p hp _

theorem str (a : RegNum) (b : RegNum) (c : BitVec 6) : Statement (.str a b c) :=
  fun p hp => opcodeAt_encode p hp _

theorem reserved8 (a : BitVec 12) : Statement (.reserved8 a) :=
  fun p hp => opcodeAt_encode p hp _

theorem not (a : RegNum) (b : RegNum) : Statement (.not a b) :=
  fun p hp => opcodeAt_encode p hp _

theorem ldi (a : RegNum) (b : BitVec 9) : Statement (.ldi a b) :=
  fun p hp => opcodeAt_encode p hp _

theorem sti (a : RegNum) (b : BitVec 9) : Statement (.sti a b) :=
  fun p hp => opcodeAt_encode p hp _

theorem jmp (a : RegNum) : Statement (.jmp a) :=
  fun p hp => opcodeAt_encode p hp _

theorem reservedD (a : BitVec 12) : Statement (.reservedD a) :=
  fun p hp => opcodeAt_encode p hp _

theorem lea (a : RegNum) (b : BitVec 9) : Statement (.lea a b) :=
  fun p hp => opcodeAt_encode p hp _

theorem trapGetc : Statement (.trapGetc) :=
  fun p hp => opcodeAt_encode p hp _

theorem trapOut : Statement (.trapOut) :=
  fun p hp => opcodeAt_encode p hp _

theorem trapPuts : Statement (.trapPuts) :=
  fun p hp => opcodeAt_encode p hp _

theorem trapIn : Statement (.trapIn) :=
  fun p hp => opcodeAt_encode p hp _

theorem trapPutsp : Statement (.trapPutsp) :=
  fun p hp => opcodeAt_encode p hp _

theorem trapHalt : Statement (.trapHalt) :=
  fun p hp => opcodeAt_encode p hp _

theorem trap (a : BitVec 4) (b : BitVec 8) : Statement (.trap a b) :=
  fun p hp => opcodeAt_encode p hp _

end Sys2Proof.Laws.OpcodeField
end

