-- ==== Sys2Proof/Tests/Slice0.lean ====
section
/-! SUPPORT. Small tests, each on one step: the words written out from 30_encoding.md, the vectors of
spec/95_test_vectors.md (named V-… and W… as there), the ill-formed terms that the checks refuse, and the
witnesses that meet the hypotheses of the obligations. -/

namespace Sys2Proof.Tests

open Sys2Proof Sys2Proof.Machine

/-! ### Helpers -/

/-- The next state of an outcome, if it has one. -/
def nextOf : Host.Outcome State Fault Refusal → Option State
  | .next t => some t
  | .fault _ => none
  | .refused _ => none

/-- The fault of an outcome, if it is one. -/
def faultOf : Host.Outcome State Fault Refusal → Option Fault
  | .next _ => none
  | .fault f => some f
  | .refused _ => none

theorem eq_next_of_nextOf {o : Host.Outcome State Fault Refusal} {t : State}
    (h : nextOf o = some t) : o = .next t := by
  cases o <;> simp_all [nextOf]

theorem eq_fault_of_faultOf {o : Host.Outcome State Fault Refusal} {f : Fault}
    (h : faultOf o = some f) : o = .fault f := by
  cases o <;> simp_all [faultOf]

theorem exists_next {o : Host.Outcome State Fault Refusal} (h : (nextOf o).isSome = true) :
    ∃ t, o = .next t := by
  cases o <;> simp_all [nextOf]

/-- The reset state with memory Words and registers set. -/
def start (words : List (Word × Word)) (regs : List (RegNum × Word)) : State :=
  regs.foldl (fun s r => s.setReg r.1 r.2) (words.foldl (fun s w => s.store w.1 w.2) State.reset)

/-- The same, with `pc`, COND, the input and the poll answers set. -/
def startAt (pc cond : Word) (input : List Byte) (draws : List Bool) (words : List (Word × Word))
    (regs : List (RegNum × Word)) : State :=
  { start words regs with pc := pc, cond := cond, input := input, draws := draws }

/-- A view of the next state of one step. -/
def after {α : Type} (s : State) (view : State → α) : Option α := (nextOf (step s)).map view

/-- The state under changed parameters. -/
def withParams (s : State) (p : Params) : State := { s with params := p }

/-! ### Decoding and encoding: the words of 30_encoding.md R66, field by field -/

/-- Decoding the word whose bits are given and encoding the instruction agree with the format. -/
def agrees (w : Word) (i : Instr) : Bool :=
  decide (decodeTableWord 16 w.toNat = some i) && decide (encode defaultParams i = w)

theorem test_word_br : agrees (0b0000#4 ++ 0b101#3 ++ 0b100000001#9) (.br 0b101 0b100000001) = true := by decide
theorem test_word_addReg : agrees (0b0001#4 ++ 0b011#3 ++ 0b001#3 ++ 0b000#3 ++ 0b110#3) (.addReg 3 1 6) = true := by decide
theorem test_word_addImm : agrees (0b0001#4 ++ 0b011#3 ++ 0b001#3 ++ 0b1#1 ++ 0b10110#5) (.addImm 3 1 0b10110) = true := by decide
theorem test_word_ld : agrees (0b0010#4 ++ 0b110#3 ++ 0b100000010#9) (.ld 6 0b100000010) = true := by decide
theorem test_word_st : agrees (0b0011#4 ++ 0b101#3 ++ 0b010000001#9) (.st 5 0b010000001) = true := by decide
theorem test_word_jsrr : agrees (0b0100#4 ++ 0b0#1 ++ 0b00#2 ++ 0b110#3 ++ 0b000000#6) (.jsrr 6) = true := by decide
theorem test_word_jsr : agrees (0b0100#4 ++ 0b1#1 ++ 0b10000000101#11) (.jsr 0b10000000101) = true := by decide
theorem test_word_andReg : agrees (0b0101#4 ++ 0b100#3 ++ 0b010#3 ++ 0b000#3 ++ 0b111#3) (.andReg 4 2 7) = true := by decide
theorem test_word_andImm : agrees (0b0101#4 ++ 0b100#3 ++ 0b010#3 ++ 0b1#1 ++ 0b01101#5) (.andImm 4 2 0b01101) = true := by decide
theorem test_word_ldr : agrees (0b0110#4 ++ 0b001#3 ++ 0b110#3 ++ 0b100001#6) (.ldr 1 6 0b100001) = true := by decide
theorem test_word_str : agrees (0b0111#4 ++ 0b011#3 ++ 0b100#3 ++ 0b011110#6) (.str 3 4 0b011110) = true := by decide
theorem test_word_reserved8 : agrees (0b1000#4 ++ 0b101010101010#12) (.reserved8 0b101010101010) = true := by decide
theorem test_word_not : agrees (0b1001#4 ++ 0b110#3 ++ 0b011#3 ++ 0b111111#6) (.not 6 3) = true := by decide
theorem test_word_ldi : agrees (0b1010#4 ++ 0b111#3 ++ 0b000000110#9) (.ldi 7 6) = true := by decide
theorem test_word_sti : agrees (0b1011#4 ++ 0b010#3 ++ 0b111111101#9) (.sti 2 0b111111101) = true := by decide
theorem test_word_jmp : agrees (0b1100#4 ++ 0b000#3 ++ 0b011#3 ++ 0b000000#6) (.jmp 3) = true := by decide
theorem test_word_reservedD : agrees (0b1101#4 ++ 0b000000000001#12) (.reservedD 1) = true := by decide
theorem test_word_lea : agrees (0b1110#4 ++ 0b101#3 ++ 0b011111111#9) (.lea 5 0b011111111) = true := by decide
theorem test_word_trapGetc : agrees (0b1111#4 ++ 0b0000#4 ++ 0x20#8) .trapGetc = true := by decide
theorem test_word_trapOut : agrees (0b1111#4 ++ 0b0000#4 ++ 0x21#8) .trapOut = true := by decide
theorem test_word_trapPuts : agrees (0b1111#4 ++ 0b0000#4 ++ 0x22#8) .trapPuts = true := by decide
theorem test_word_trapIn : agrees (0b1111#4 ++ 0b0000#4 ++ 0x23#8) .trapIn = true := by decide
theorem test_word_trapPutsp : agrees (0b1111#4 ++ 0b0000#4 ++ 0x24#8) .trapPutsp = true := by decide
theorem test_word_trapHalt : agrees (0b1111#4 ++ 0b0000#4 ++ 0x25#8) .trapHalt = true := by decide
theorem test_word_trap : agrees (0b1111#4 ++ 0b0011#4 ++ 0x26#8) (.trap 3 0x26) = true := by decide

/-- No instruction is longer than 16 bits (30_encoding.md R60). -/
theorem test_word_too_long : decodeTableWord 32 0x1020 = none := by decide

/-! ### Well-formedness: every check refuses an ill-formed term -/

theorem test_wf_default : defaultParams.wf = true := by decide
theorem test_wf_trap_undefined : Instr.wf defaultParams (.trap 0 0x26) = true := by decide
theorem test_illformed_trap_defined : Instr.wf defaultParams (.trap 0 0x25) = false := by decide
/-- A role twice: opcode value 8 given to BR as well. -/
theorem test_illformed_opcode_twice :
    opcodesWf (defaultOpcodes.set 8 .br) = false := by decide
/-- ADD not at 1 (00_scope.md R7). -/
theorem test_illformed_add :
    opcodesWf ((defaultOpcodes.set 1 .ld).set 2 .add) = false := by decide
/-- TRAP not at 15 (00_scope.md R7). -/
theorem test_illformed_trap_opcode :
    opcodesWf ((defaultOpcodes.set 15 .lea).set 14 .trap) = false := by decide
theorem test_illformed_vector_twice :
    TrapVectors.wf { defaultVectors with out := 0x20 } = false := by decide
/-- HALT not at 0x25 (00_scope.md R7). -/
theorem test_illformed_halt :
    TrapVectors.wf { defaultVectors with halt := 0x26 } = false := by decide
theorem test_illformed_cond_two_bits :
    CondEnc.wf { defaultCondEnc with n := 0x0006 } = false ∧
    CondEnc.wf { defaultCondEnc with z := 0x0000 } = false := by decide
theorem test_illformed_cond_twice :
    CondEnc.wf { defaultCondEnc with n := 0x0001 } = false := by decide
/-- The two device registers at one address (20_memory.md R43). -/
theorem test_illformed_device_addresses :
    Params.wf { defaultParams with kbdrAddr := 0xFE00 } = false := by decide
theorem test_illformed_ready :
    Params.wf { defaultParams with kbsrReady := 0x4000 } = false := by decide
theorem test_illformed_memory_zero_entry : ¬Memory.wf [(4, 0x00)] := by decide
theorem test_illformed_memory_order : ¬Memory.wf [(5, 0x01), (4, 0x01)] := by decide
theorem test_illformed_memory_range : ¬Memory.wf [(131072, 0x01)] := by decide

/-! ### One step each: the vectors of 95_test_vectors.md -/

-- V-O1
theorem test_addReg_signed_overflow :
    after (start [(0x3000, 0x1642)] [(1, 0x7FFF), (2, 0x0001)])
      (fun t => (t.reg 3, t.cond, t.pc)) = some (0x8000, 0x0004, 0x3001) := by decide
-- V-O5
theorem test_addReg_ignored_bits :
    after (start [(0x3000, 0x1058)] [(0, 0x0003), (1, 0x0004)])
      (fun t => (t.reg 0, t.cond)) = some (0x0007, 0x0001) := by decide
-- V-O2
theorem test_addImm_carry_lost :
    after (start [(0x3000, 0x1261)] [(1, 0xFFFF)]) (fun t => (t.reg 1, t.cond)) =
      some (0x0000, 0x0002) := by decide
-- V-O4
theorem test_addImm_negative :
    after (start [(0x3000, 0x1230)] [(0, 0x0005)]) (fun t => (t.reg 1, t.cond)) =
      some (0xFFF5, 0x0004) := by decide
-- V-O8
theorem test_andReg :
    after (start [(0x3000, 0x5401)] [(0, 0x8000), (1, 0x8001)]) (fun t => (t.reg 2, t.cond)) =
      some (0x8000, 0x0004) := by decide
-- V-O6
theorem test_andImm_zero :
    after (startAt 0x3000 0x0001 [] [] [(0x3000, 0x5020)] [(0, 0x1234)])
      (fun t => (t.reg 0, t.cond)) = some (0x0000, 0x0002) := by decide
-- V-O7
theorem test_andImm_negative :
    after (start [(0x3000, 0x56FE)] [(3, 0x00FF)]) (fun t => (t.reg 3, t.cond)) =
      some (0x00FE, 0x0001) := by decide
-- V-O9
theorem test_not :
    after (start [(0x3000, 0x997F)] []) (fun t => (t.reg 4, t.cond)) =
      some (0xFFFF, 0x0004) := by decide
-- V-O11
theorem test_not_ignored_bits :
    after (start [(0x3000, 0x9240)] [(1, 0x00FF)]) (fun t => (t.reg 1, t.cond)) =
      some (0xFF00, 0x0004) := by decide

-- V-M2
theorem test_ld_wraps :
    after (startAt 0xFFFF 0x0002 [] [] [(0xFFFF, 0x2000), (0x0000, 0x9000)] [])
      (fun t => (t.reg 0, t.cond, t.pc)) = some (0x9000, 0x0004, 0x0000) := by decide
-- V-M6
theorem test_ld_poll_not_taken :
    after (startAt 0xFDFF 0x0002 [0x61] [false] [(0xFDFF, 0x2000), (0xFE01, 0x0055)] [])
      (fun t => (t.reg 0, t.cond, t.word 0xFE01, t.input)) =
      some (0x0000, 0x0002, 0x0055, [0x61]) := by decide
-- V-M4 with KBDR_ADDR = 0xFE02: 20_memory.md R43 "A model keeps both addresses as parameters"
theorem test_poll_writes_the_data_register_parameter :
    after (withParams (startAt 0xFDFF 0x0002 [0x61] [true] [(0xFDFF, 0x2000)] [])
        { defaultParams with kbdrAddr := 0xFE02 })
      (fun t => (t.reg 0, t.word 0xFE00, t.word 0xFE01, t.word 0xFE02)) =
      some (0x8000, 0x8000, 0x0000, 0x0061) := by decide
-- V-M9
theorem test_ldi_second_read_polls :
    after (startAt 0x3000 0x0002 [0x7A] [true] [(0x3000, 0xA001), (0x3002, 0xFE00)] [])
      (fun t => (t.reg 0, t.cond, t.word 0xFE01)) = some (0x8000, 0x0004, 0x007A) := by decide
-- V-M8
theorem test_ldi :
    after (start [(0x3000, 0xA001), (0x3002, 0x4000), (0x4000, 0xABCD)] [])
      (fun t => (t.reg 0, t.cond)) = some (0xABCD, 0x0004) := by decide
-- V-M10
theorem test_ldr_wraps :
    after (start [(0x3000, 0x68BF), (0xFFFF, 0x7777)] [])
      (fun t => (t.reg 4, t.cond)) = some (0x7777, 0x0001) := by decide
-- V-M11
theorem test_ldr_same_register :
    after (start [(0x3000, 0x6480), (0x4000, 0x1111)] [(2, 0x4000)])
      (fun t => (t.reg 2, t.cond)) = some (0x1111, 0x0001) := by decide
-- V-M13
theorem test_lea_wraps :
    after (startAt 0xFFFF 0x0001 [] [] [(0xFFFF, 0xE000)] [])
      (fun t => (t.reg 0, t.cond, t.pc)) = some (0x0000, 0x0002, 0x0000) := by decide
-- V-M15
theorem test_lea_does_not_poll :
    after (startAt 0xFDFF 0x0002 [0x61] [true] [(0xFDFF, 0xE000)] [])
      (fun t => (t.reg 0, t.word 0xFE00, t.input)) = some (0xFE00, 0x0000, [0x61]) := by decide
-- V-M16
theorem test_st_keeps_cond :
    after (startAt 0x3000 0x0004 [] [] [(0x3000, 0x37FE)] [(3, 0x1234)])
      (fun t => (t.word 0x2FFF, t.cond)) = some (0x1234, 0x0004) := by decide
-- V-M17
theorem test_st_next_word :
    after (start [(0x3000, 0x3600)] [(3, 0x1234)]) (fun t => (t.word 0x3001, t.pc)) =
      some (0x1234, 0x3001) := by decide
-- V-M18
theorem test_sti :
    after (start [(0x3000, 0xB200), (0x3001, 0x5000)] [(1, 0x00AA)]) (fun t => t.word 0x5000) =
      some 0x00AA := by decide
-- V-M23
theorem test_sti_pointer_polls :
    after (startAt 0xFDFF 0x0002 [0x61] [true] [(0xFDFF, 0xB200)] [(1, 0x00AA)])
      (fun t => (t.word 0xFE00, t.word 0xFE01, t.word 0x8000)) =
      some (0x8000, 0x0061, 0x00AA) := by decide
-- V-M20
theorem test_str :
    after (start [(0x3000, 0x7040)] [(0, 0x5000), (1, 0x6000)])
      (fun t => (t.word 0x6000, t.word 0x5000)) = some (0x5000, 0x0000) := by decide
-- V-M21
theorem test_str_neighbour :
    after (start [(0x3000, 0x7280)] [(1, 0x4100), (2, 0x4101)])
      (fun t => (t.word 0x4101, t.word 0x4100)) = some (0x4100, 0x0000) := by decide

-- W7
theorem test_br_taken :
    after (startAt 0x3005 0x0002 [] [] [(0x3005, 0x05FE)] []) (fun t => (t.pc, t.cond)) =
      some (0x3004, 0x0002) := by decide
-- W7
theorem test_br_not_taken :
    after (startAt 0x3005 0x0001 [] [] [(0x3005, 0x05FE)] []) (fun t => t.pc) =
      some 0x3006 := by decide
-- V-C9
theorem test_jmp :
    after (start [(0x3000, 0xC080)] [(2, 0x4000)]) (fun t => t.pc) = some 0x4000 := by decide
-- V-C11
theorem test_jmp_ignored_bits :
    after (start [(0x3000, 0xCFFF)] [(7, 0x1234)]) (fun t => t.pc) = some 0x1234 := by decide
-- V-C12
theorem test_jsr_forward :
    after (start [(0x3000, 0x4805)] []) (fun t => (t.reg 7, t.pc, t.cond)) =
      some (0x3001, 0x3006, 0x0002) := by decide
-- V-C13
theorem test_jsr_backward :
    after (start [(0x3000, 0x4C00)] []) (fun t => (t.reg 7, t.pc)) =
      some (0x3001, 0x2C01) := by decide
-- V-C16
theorem test_jsrr_r7 :
    after (start [(0x3000, 0x41C0)] [(7, 0x5000)]) (fun t => (t.reg 7, t.pc)) =
      some (0x3001, 0x3001) := by decide
-- V-C17
theorem test_jsrr_r7_base_first :
    after (withParams (start [(0x3000, 0x41C0)] [(7, 0x5000)])
        { defaultParams with jsrrBaseFirst := true })
      (fun t => (t.reg 7, t.pc)) = some (0x3001, 0x5000) := by decide

-- V-T2
theorem test_getc_zero_extends :
    after (startAt 0x3000 0x0004 [0xFF] [] [(0x3000, 0xF020)] [])
      (fun t => (t.reg 0, t.cond, t.output, t.input)) = some (0x00FF, 0x0004, [], []) := by decide
-- V-T3
theorem test_getc_holds :
    faultOf (step (start [(0x3000, 0xF020)] [])) =
      some (.waitingForInput (start [(0x3000, 0xF020)] [] |>.setPc 0x3001)) := by decide
-- V-T4
theorem test_out :
    after (start [(0x3000, 0xF021)] [(0, 0x1241)]) (fun t => t.output) = some [0x41] := by decide
-- V-T20
theorem test_out_writes_r7 :
    after (withParams (start [(0x3000, 0xF021)] [(0, 0x0041), (7, 0x1111)])
        { defaultParams with trapWritesR7 := true })
      (fun t => (t.output, t.reg 7)) = some ([0x41], 0x3001) := by decide
-- V-T7
theorem test_puts_stops_at_top :
    after (start [(0x3000, 0xF022), (0xFFFE, 0x4142), (0xFFFF, 0x0043)] [(0, 0xFFFE)])
      (fun t => t.output) = some [0x42, 0x43] := by decide
-- V-T8
theorem test_puts_does_not_poll :
    after (startAt 0x3000 0x0002 [0x6B] [true]
        [(0x3000, 0xF022), (0xFE00, 0x0041), (0xFE01, 0x0042)] [(0, 0xFE00)])
      (fun t => (t.output, t.word 0xFE00, t.input)) =
      some ([0x41, 0x42], 0x0041, [0x6B]) := by decide
-- V-T10
theorem test_in_zero :
    after (startAt 0x3000 0x0001 [0x00] [] [(0x3000, 0xF023)] [])
      (fun t => (t.output, t.reg 0, t.cond)) =
      some (defaultPrompt ++ [0x00], 0x0000, 0x0002) := by decide
-- V-T11
theorem test_in_holds_after_prompt :
    (faultOf (step (start [(0x3000, 0xF023)] []))).map (fun f => f.state.output) =
      some defaultPrompt := by decide
-- V-T12
theorem test_putsp :
    after (start [(0x3000, 0xF024), (0x4000, 0x6948), (0x4001, 0x0021)] [(0, 0x4000)])
      (fun t => t.output) = some [0x48, 0x69, 0x21] := by decide
-- V-T13
theorem test_putsp_zero_low_byte :
    after (start [(0x3000, 0xF024), (0x4000, 0x4100)] [(0, 0x4000)])
      (fun t => t.output) = some [0x00, 0x41] := by decide
-- V-T14
theorem test_halt :
    after (startAt 0x3001 0x0002 [] [] [(0x3001, 0xF025)] [])
      (fun t => (t.run, t.pc, t.output)) =
      some (.halted, 0x3002, [0x48, 0x41, 0x4C, 0x54, 0x0A]) := by decide
-- V-T15
theorem test_halt_ignored_bits :
    after (start [(0x3000, 0xFF25)] []) (fun t => (t.run, t.pc)) =
      some (.halted, 0x3001) := by decide
-- V-T16
theorem test_trap_undefined_faults :
    faultOf (step (start [(0x3000, 0xF026)] [])) =
      some (.illegalTrap 0x26 0x3000 0xF026 ((start [(0x3000, 0xF026)] []).setPc 0x3001)) := by
  decide
-- V-T19
theorem test_trap_undefined_nop :
    after (withParams (start [(0x3000, 0xF026)] [])
        { defaultParams with undefinedTrapPolicy := .nop, trapWritesR7 := true })
      (fun t => (t.pc, t.reg 7, t.run)) = some (0x3001, 0x0000, .running) := by decide

-- V-E3
theorem test_reserved8_at_top :
    faultOf (step (startAt 0xFFFF 0x0002 [] [] [(0xFFFF, 0x8000)] [])) =
      some (.illegalOpcode 0xFFFF 0x8000 (startAt 0x0000 0x0002 [] [] [(0xFFFF, 0x8000)] [])) := by
  decide
-- V-E2
theorem test_reservedD :
    faultOf (step (start [(0x3000, 0xD123)] [(1, 0x0005)])) =
      some (.illegalOpcode 0x3000 0xD123
        ((start [(0x3000, 0xD123)] [(1, 0x0005)]).setPc 0x3001)) := by decide
-- V-E4
theorem test_fetch_from_kbsr_taken :
    (faultOf (step (startAt 0xFE00 0x0002 [0x63] [true] [(0xFE00, 0x1234)] []))).map
        (fun f => (f.code, f.state.word 0xFE01, f.state.pc)) =
      some (some 1, 0x0063, 0xFE01) := by decide
-- V-E5
theorem test_fetch_from_kbsr_no_input :
    after (startAt 0xFE00 0x0002 [] [] [(0xFE00, 0x1234)] [])
      (fun t => (t.pc, t.word 0xFE00)) = some (0xFE01, 0x0000) := by decide

/-! ### The loader -/

/-- A view of the machine before its first step, with these images loaded. -/
def booted {α : Type} (images : List ImageSource) (view : State → α) : Option α :=
  match boot defaultParams images [] [] with
  | .ok s => some (view s)
  | .error _ => none

-- V-L1
theorem test_load_odd_byte :
    booted [.bytes [0x40, 0x00, 0x12, 0x34, 0xAB, 0xCD, 0x77]]
      (fun s => (s.word 0x4000, s.word 0x4001, s.word 0x4002, s.pc)) =
      some (0x1234, 0xABCD, 0x0000, 0x3000) := by decide
-- V-L2
theorem test_load_past_top :
    booted [.bytes [0xFF, 0xFF, 0x11, 0x11, 0x22, 0x22]]
      (fun s => (s.word 0xFFFF, s.word 0x0000)) = some (0x1111, 0x0000) := by decide
-- V-L3
theorem test_load_order :
    booted [.bytes [0x30, 0x00, 0, 1, 0, 2, 0, 3], .bytes [0x30, 0x01, 0, 9]]
      (fun s => (s.word 0x3000, s.word 0x3001, s.word 0x3002)) =
      some (0x0001, 0x0009, 0x0003) := by decide
-- V-L4 and V-L5
theorem test_load_short :
    booted [.bytes [0x30, 0x00]] (fun s => s.mem) = some [] ∧
    booted [.bytes [0x30]] (fun s => s.mem) = none := by decide

/-! ### Witnesses: states and operands that meet the hypotheses of the obligations

One theorem for each obligation that has hypotheses, and for the clauses of those that have several,
named after the obligation. -/

/-- Parameters unlike the default ones, and within the limits. -/
def otherParams : Params :=
  { defaultParams with
    kbsrAddr := 0xFFFF
    kbdrAddr := 0x0000
    opcodes := (defaultOpcodes.set 0 .lea).set 14 .br
    condEnc := { p := 0x8000, z := 0x0002, n := 0x0001 }
    undefinedTrapPolicy := .nop
    trapWritesR7 := true
    jsrrBaseFirst := true }

theorem test_witness_otherParams : otherParams.wf = true ∧ otherParams ≠ defaultParams := by decide

theorem test_witness_DecodeInvertsEncode :
    otherParams.wf = true ∧ Instr.wf otherParams (.trap 15 0xFF) = true ∧
    Instr.wf otherParams (.addImm 7 7 0x1F) = true := by decide

theorem test_witness_IgnoredBitsChangeNothing :
    opcodeAt defaultParams 0x1 = .add ∧ opcodeAt defaultParams 0x5 = .and ∧
    opcodeAt defaultParams 0x4 = .jsr ∧ opcodeAt defaultParams 0x9 = .not ∧
    opcodeAt defaultParams 0xC = .jmp ∧ opcodeAt defaultParams 0xF = .trap ∧
    defaultParams.trapVectors.isDefined 0x20 = true ∧
    defaultParams.trapVectors.isDefined 0x25 = true := by decide

/-- The roles of the statements that give an instruction's format, at the values of 30_encoding.md R65. -/
theorem test_witness_formats :
    opcodeAt defaultParams 0x0 = .br ∧ opcodeAt defaultParams 0x1 = .add ∧
    opcodeAt defaultParams 0x2 = .ld ∧ opcodeAt defaultParams 0x3 = .st ∧
    opcodeAt defaultParams 0x4 = .jsr ∧ opcodeAt defaultParams 0x5 = .and ∧
    opcodeAt defaultParams 0x6 = .ldr ∧ opcodeAt defaultParams 0x7 = .str ∧
    opcodeAt defaultParams 0xA = .ldi ∧ opcodeAt defaultParams 0xB = .sti ∧
    opcodeAt defaultParams 0xE = .lea := by decide

theorem test_witness_ResetMeetsInvariant : otherParams.wf = true ∧ State.reset.Inv := by decide

/-- A state no run from reset reaches meets the invariant as well. -/
theorem test_witness_StepKeepsInvariant :
    (withParams (startAt 0xFFFF 0x0001 [0x41] [true] [(0xFFFF, 0x1642), (0x0000, 0x00FF)]
      [(1, 0x8000)]) otherParams).Inv ∧
    (nextOf (step (withParams (startAt 0xFFFE 0x0001 [0x41] [true]
      [(0xFFFE, 0x1642), (0x0000, 0x00FF)] [(1, 0x8000)]) otherParams))).isSome = true := by decide

theorem test_witness_StopKeepsInvariant :
    (start [(0x3000, 0x8000)] []).Inv ∧
    (faultOf (step (start [(0x3000, 0x8000)] []))).isSome = true ∧
    (start [(0x3000, 0xF023)] []).Inv ∧
    (faultOf (step (start [(0x3000, 0xF023)] []))).isSome = true := by decide

/-- Both kinds of fetch: one below KBSR_ADDR, and at it. -/
theorem test_witness_StepRunsDecodedInstruction :
    (startAt 0xFDFF 0x0002 [] [] [] []).run = .running ∧
    (startAt 0xFDFF 0x0002 [] [] [] []).pc ≠ defaultParams.kbsrAddr ∧
    (startAt 0xFE00 0x0002 [] [] [] []).run = .running ∧
    (startAt 0xFE00 0x0002 [] [] [] []).pc = defaultParams.kbsrAddr := by decide

theorem test_witness_HaltedHasNoStep : State.reset.halt.run = .halted := by decide

theorem test_witness_RunningIsNeverRefused : State.reset.run = .running := by decide

/-- Each of the listed stops happens: both reserved opcodes, an undefined vector, GETC and IN. -/
theorem test_witness_OnlyListedStops :
    defaultParams.wf = true ∧
    (faultOf (step (start [(0x3000, 0x8FFF)] []))).map Fault.code = some (some 1) ∧
    (faultOf (step (start [(0x3000, 0xD000)] []))).map Fault.code = some (some 1) ∧
    (faultOf (step (start [(0x3000, 0xF01F)] []))).map Fault.code = some (some 2) ∧
    (faultOf (step (start [(0x3000, 0xF020)] []))).map Fault.code = some none ∧
    (faultOf (step (start [(0x3000, 0xF023)] []))).map Fault.code = some none := by decide

theorem test_witness_RegistersOutsideTheTableKeep :
    Instr.wf defaultParams (.addReg 7 0 0) = true ∧
    (nextOf (exec (.addReg 7 0 0) State.reset)).isSome = true ∧
    (6 : RegNum) ∉ registersWritten defaultParams (.addReg 7 0 0) ∧
    (nextOf (exec .trapOut State.reset)).isSome = true ∧
    (7 : RegNum) ∉ registersWritten defaultParams .trapOut := by decide

/-- Both clauses: an instruction that sets COND, and one that does not. -/
theorem test_witness_CondWrittenExactlyBySetters :
    (nextOf (exec (.lea 0 0x0FF) State.reset)).isSome = true ∧
    flagRegister (.lea 0 0x0FF) = some 0 ∧
    (nextOf (exec (.st 0 0) State.reset)).isSome = true ∧ flagRegister (.st 0 0) = none := by decide

theorem test_witness_PcMovesOnByOne :
    (nextOf (step (startAt 0xFFFF 0x0002 [] [] [(0xFFFF, 0x1020)] []))).isSome = true ∧
    transfersControl (decode defaultParams
      (fetch (startAt 0xFFFF 0x0002 [] [] [(0xFFFF, 0x1020)] [])).1) = false := by decide

/-- Both sides of the equivalence. -/
theorem test_witness_OnlyHaltEndsTheRun :
    after (start [(0x3000, 0xF025)] []) (fun t => t.run) = some .halted ∧
    after (start [(0x3000, 0xF021)] []) (fun t => t.run) = some .running := by decide

theorem test_witness_OnlyMemoryInstructionsTouchMemory :
    accessesMemory (.lea 0 0) = false ∧ (nextOf (exec (.lea 0 0) State.reset)).isSome = true ∧
    accessesMemory .trapPuts = false ∧ (nextOf (exec .trapPuts State.reset)).isSome = true := by
  decide

/-- A run of one step, from a state that emits a byte. -/
theorem test_witness_PortsAreSequential :
    ∃ t, Host.Core.run Sys2Proof.core 1 (start [(0x3000, 0xF021)] [(0, 0x0041)]) = .next t := by
  obtain ⟨t, h⟩ := exists_next (o := step (start [(0x3000, 0xF021)] [(0, 0x0041)])) (by decide)
  exact ⟨t, run_succ_next Sys2Proof.core 0 h⟩

/-- The ends of the three ranges: 0x0000, then 0x8000 and 0xFFFF, then 0x0001 and 0x7FFF (W5). -/
theorem test_witness_SetccFollowsSign :
    condFor defaultCondEnc 0x0000 = 0x0002 ∧ condFor defaultCondEnc 0x8000 = 0x0004 ∧
    condFor defaultCondEnc 0xFFFF = 0x0004 ∧ condFor defaultCondEnc 0x0001 = 0x0001 ∧
    condFor defaultCondEnc 0x7FFF = 0x0001 := by decide

/-- The smallest and the greatest width, and the sign boundary of W4. -/
theorem test_witness_ExtensionsKeepTheirField :
    sext 1#1 = 0xFFFF ∧ sext 0x8000#16 = 0x8000 ∧ sext 0x10#5 = 0xFFF0 ∧ sext 0x0F#5 = 0x000F ∧
    sext 0x400#11 = 0xFC00 ∧ zext 0xFF#8 = 0x00FF ∧ zext 0x7#3 = 0x0007 ∧ zext 0xFFFF#16 = 0xFFFF := by decide

/-- On both sides of KBSR_ADDR. -/
theorem test_witness_PlainReadsChangeNothing :
    (0xFDFF : Word) ≠ State.reset.params.kbsrAddr ∧ (0xFE01 : Word) ≠ State.reset.params.kbsrAddr ∧
    (0xFE00 : Word) = State.reset.params.kbsrAddr := by decide

/-- The three cases of a poll: taken, not taken, nothing pending. -/
theorem test_witness_KeyboardReadPolls :
    defaultParams.kbdrAddr ≠ defaultParams.kbsrAddr ∧
    (startAt 0x3000 0x0002 [0x61] [true] [] []).nextDraw = true ∧
    (memRead (startAt 0x3000 0x0002 [0x61] [true] [] []) 0xFE00).1 = 0x8000 ∧
    (startAt 0x3000 0x0002 [0x61] [false] [] []).nextDraw = false ∧
    (memRead (startAt 0x3000 0x0002 [0x61] [false] [] []) 0xFE00).1 = 0x0000 ∧
    (memRead (startAt 0x3000 0x0002 [] [true] [] []) 0xFE00).1 = 0x0000 := by decide

/-- The addresses beside KBSR_ADDR, for LD, LDI's two reads and LDR. -/
theorem test_witness_LoadsAwayFromTheKeyboard :
    (0xFE00 : Word) + (0x1FF#9).signExtend 16 ≠ defaultParams.kbsrAddr ∧
    (0xFE00 : Word) + (0x001#9).signExtend 16 ≠ defaultParams.kbsrAddr ∧
    (startAt 0xFE00 0x0002 [] [] [(0xFE01, 0xFDFF)] []).word
        ((0xFE00 : Word) + (0x001#9).signExtend 16) ≠ defaultParams.kbsrAddr ∧
    (0xFE00 : Word) + (0x3F#6).signExtend 16 ≠ defaultParams.kbsrAddr := by decide

theorem test_witness_StoreIsFetchedNext :
    (start [(0x3000, 0x3600)] [(3, 0x1021)]).run = .running ∧
    (start [(0x3000, 0x3600)] [(3, 0x1021)]).pc ≠ defaultParams.kbsrAddr ∧
    (start [(0x3000, 0x3600)] [(3, 0x1021)]).pc + 1 ≠ defaultParams.kbsrAddr ∧
    decode defaultParams ((start [(0x3000, 0x3600)] [(3, 0x1021)]).word 0x3000) = .st 3 0 := by
  decide

/-- A common bit of mask and COND, and none. -/
theorem test_witness_BranchResult :
    State.reset.params.condEnc = { p := 0x0001, z := 0x0002, n := 0x0004 } ∧
    (0b010#3).getLsbD 1 = true ∧ State.reset.cond.getLsbD 1 = true ∧
    (∀ i < 3, (0b101#3).getLsbD i = true → State.reset.cond.getLsbD i = false) := by decide

/-- The default COND_ENC and another one. -/
theorem test_witness_BranchTestsFlagsByName :
    State.reset.condLegal ∧ State.reset.params.wf = true ∧
    (State.resetWith otherParams).condLegal ∧ (State.resetWith otherParams).params.wf = true := by
  decide

/-- JSRR with a base other than R7, and with R7 in both orders. -/
theorem test_witness_JumpSubroutineRegisterResult :
    (6 : RegNum) ≠ 7 ∧ defaultParams.jsrrBaseFirst = false ∧ otherParams.jsrrBaseFirst = true := by
  decide

theorem test_witness_GetcResult :
    (startAt 0x3001 0x0002 [0xFF] [] [] []).input = 0xFF :: [] ∧
    defaultParams.trapWritesR7 = false ∧ otherParams.trapWritesR7 = true := by decide

/-- The character 0 and the two ends of the others. -/
theorem test_witness_InResult :
    (nextOf (exec .trapIn (startAt 0x3001 0x0001 [0x00] [] [] []))).map (fun t => t.cond) =
      some 0x0002 ∧
    (nextOf (exec .trapIn (startAt 0x3001 0x0002 [0x01] [] [] []))).map (fun t => t.cond) =
      some 0x0001 ∧
    (nextOf (exec .trapIn (startAt 0x3001 0x0002 [0xFF] [] [] []))).map (fun t => t.cond) =
      some 0x0001 := by decide

/-- The two ways a scan ends, with no Word read and with one: at a zero Word, and at the top. -/
theorem test_witness_PutsResult :
    scanString putsChars [] 65536 0xFFFF = [] ∧
    scanString putsChars (start [(0xFFFF, 0x0041)] []).mem 65536 0xFFFF = [0x41] ∧
    scanString putspChars (start [(0xFFFF, 0x00FF)] []).mem 65536 0xFFFF = [0xFF] ∧
    scanString putspChars (start [(0xFFFF, 0x0100)] []).mem 65536 0xFFFF = [0x00, 0x01] := by decide

theorem test_witness_InputServicesHoldWithoutInput : State.reset.input = [] := by decide

/-- The vectors on both sides of the defined ones. -/
theorem test_witness_UndefinedTrapIsNopUnderNop :
    otherParams.trapVectors.isDefined 0x1F = false ∧ otherParams.trapVectors.isDefined 0x26 = false ∧
    otherParams.undefinedTrapPolicy = .nop := by decide

theorem test_witness_UndefinedTrapFaultsUnderFault :
    defaultParams.wf = true ∧ defaultParams.trapVectors.isDefined 0x1F = false ∧
    defaultParams.trapVectors.isDefined 0x26 = false ∧
    defaultParams.undefinedTrapPolicy = .fault := by decide

theorem test_witness_TrapDispatchesOnVector :
    State.reset.params.wf = true ∧ (State.resetWith otherParams).params.wf = true := by decide

theorem test_witness_ReservedOpcodesFault : State.reset.params.opcodes = defaultOpcodes := by decide

/-- The poll of a fetch: taken, not taken, nothing pending. -/
theorem test_witness_FetchFromKeyboardStatus :
    (startAt 0xFE00 0x0002 [0x63] [true] [] []).nextDraw = true ∧
    (startAt 0xFE00 0x0002 [0x63] [false] [] []).nextDraw = false ∧
    (startAt 0xFE00 0x0002 [] [] [] []).input = [] ∧
    (startAt 0xFE00 0x0002 [] [] [] []).run = .running ∧
    (startAt 0xFE00 0x0002 [] [] [] []).params = defaultParams := by decide

theorem test_witness_ZeroWordSlides :
    State.reset.run = .running ∧ State.reset.pc ≠ State.reset.params.kbsrAddr ∧
    State.reset.word State.reset.pc = 0x0000 ∧ opcodeAt State.reset.params 0 = .br := by decide

/-- The last Word an image covers and the first it does not, at the top of memory and below. -/
theorem test_witness_LoadPlacesTheImage :
    readWord (placeWords [0x12, 0x34, 0x56] 0xFFFF []) 0xFFFF = 0x1234 ∧
    readWord (placeWords [0x12, 0x34, 0x56] 0x4000 []) 0x4000 = 0x1234 ∧
    readWord (placeWords [0x12, 0x34, 0x56] 0x4000 []) 0x4001 = 0x0000 ∧
    readWord (placeWords [0x12, 0x34, 0x56] 0x4000 []) 0x3FFF = 0x0000 := by decide

/-- An image of 1 byte fails and one of 2 does not; a start fails with its first bad image. -/
theorem test_witness_LoadFailures :
    ([0x30] : List Byte).length < 2 ∧ ¬([0x30, 0x00] : List Byte).length < 2 ∧
    (boot defaultParams [.unopenable] [] [] = .error .cannotOpen) :=
  ⟨by decide, by decide, rfl⟩

theorem test_witness_ImagesLoadInOrder :
    loadAll [.bytes [0x30, 0x00]] State.reset = .ok State.reset ∧
    load State.reset (.bytes [0x30, 0x01]) = .ok State.reset :=
  ⟨rfl, rfl⟩

theorem test_witness_BootState :
    boot defaultParams [.bytes [0x30, 0x00]] [] [] = .ok State.reset := rfl

/-- The greatest Word, at the reset pc. -/
theorem test_witness_PlacedWordRunsNext :
    0xFFFF < 2 ^ 16 ∧ State.reset.pc ≠ State.reset.params.kbsrAddr ∧
    (State.reset.withFetchWord 16 0xFFFF).word 0x3000 = 0xFFFF := by decide

end Sys2Proof.Tests
end

section
/-! PROOFS. The two extensions of a field to a Word (00_scope.md R11). -/

namespace Sys2Proof.Machine

/-- Inside the field, sign extension changes no bit. -/
theorem getLsbD_sext_of_lt {n : Nat} (v : BitVec n) {i : Nat} (hn : n ≤ 16) (hi : i < n) :
    (sext v).getLsbD i = v.getLsbD i := by
  have hw : i < 16 := Nat.lt_of_lt_of_le hi hn
  rw [sext, BitVec.getLsbD_signExtend, if_pos hi, decide_eq_true hw, Bool.true_and]

/-- Above the field, every bit of the Word is the field's top bit. -/
theorem getLsbD_sext_of_le {n : Nat} (v : BitVec n) {i : Nat} (hi : n ≤ i) (hw : i < 16) :
    (sext v).getLsbD i = v.getLsbD (n - 1) := by
  rw [sext, BitVec.getLsbD_signExtend, if_neg (Nat.not_lt.mpr hi), decide_eq_true hw,
    Bool.true_and, BitVec.msb_eq_getLsbD_last]

/-- Zero extension keeps the value of a field that fits into a Word. -/
theorem toNat_zext {n : Nat} (v : BitVec n) (hn : n ≤ 16) : (zext v).toNat = v.toNat :=
  BitVec.toNat_setWidth_of_le hn

/-- Settles O21: below and above the field for sign extension, the value for zero extension. -/
theorem extensionsKeepTheirField : Obligations.ExtensionsKeepTheirField :=
  ⟨fun _ v _ hn => ⟨fun _ hi => getLsbD_sext_of_lt v hn hi, fun _ hi hw => getLsbD_sext_of_le v hi hw⟩,
    fun _ v hn => toNat_zext v hn⟩

end Sys2Proof.Machine
end

section
/-! PROOFS. The invariant and the ports along every step and every run (10_state.md R26, R32, R34), from
what every step keeps. -/

namespace Sys2Proof.Machine

variable {s t : State}

/-- Whatever keeps what every instruction keeps keeps the invariant: COND stays, or becomes the flag of
some Word. -/
theorem Kept.inv (h : Kept s t) (hs : s.Inv) : t.Inv := by
  obtain ⟨hmem, hcond, hparams⟩ := hs
  refine ⟨h.mem_wf hmem, ?_, h.params ▸ hparams⟩
  show t.cond = t.params.condEnc.n ∨ t.cond = t.params.condEnc.z ∨ t.cond = t.params.condEnc.p
  rw [h.params]
  rcases h.cond with e | ⟨v, e⟩
  · rw [e]; exact hcond
  · rw [e]; exact condFor_legal _ v

/-- A step keeps what every instruction keeps. -/
theorem step_kept (h : step s = .next t) : Kept s t := by
  have hends := step_ends (step_next h).1
  rwa [h] at hends

/-- A run keeps what every instruction keeps. -/
theorem run_kept (k : Nat) : ∀ {s t : State},
    Host.Core.run Sys2Proof.core k s = .next t → Kept s t := by
  induction k with
  | zero => rintro s _ ⟨⟩; exact .refl s
  | succ k ih =>
    intro s t h
    cases hs : step s with
    | next u => exact (step_kept hs).trans (ih (run_succ_next Sys2Proof.core k hs ▸ h))
    | fault f => rw [run_succ_fault Sys2Proof.core k hs] at h; cases h
    | refused r => rw [run_succ_refused Sys2Proof.core k hs] at h; cases h

/-- The state after reset meets the invariant. -/
theorem resetWith_inv {p : Params} (hp : p.wf = true) : (State.resetWith p).Inv :=
  ⟨nil_wf, .inr (.inl rfl), hp⟩

/-- Settles O8, from what every step keeps. -/
theorem stepKeepsInvariant : Obligations.StepKeepsInvariant :=
  fun _ _ hs h => (step_kept h).inv hs

/-- Settles O19, from what every run keeps. -/
theorem portsAreSequential : Obligations.PortsAreSequential :=
  fun k _ _ h => ⟨(run_kept k h).output, (run_kept k h).input, (run_kept k h).params⟩

/-- Settles O6, field by field. -/
theorem resetValues : Obligations.ResetValues :=
  ⟨fun p => ⟨State.reg_resetWith p, State.word_resetWith p, rfl, rfl, rfl, rfl, rfl⟩, rfl, rfl⟩

/-- Settles O7: the default parameters are within the limits. -/
theorem resetMeetsInvariant : Obligations.ResetMeetsInvariant :=
  ⟨fun _ hp => resetWith_inv hp, resetWith_inv (by decide)⟩

end Sys2Proof.Machine
end

section
/-! PROOFS. What an instruction writes and what it leaves alone, said once for all instructions: the
general registers (10_state.md R22), `pc` (R24), COND (R28) and the run state (R31). -/

namespace Sys2Proof

/-- The TRAP dispatch of the decoder gives its generic row to undefined vectors only
(30_encoding.md R78). -/
theorem decodeTrap_wf (p : Params) (w : Word) : (decodeTrap p.trapVectors w).wf p = true := by
  unfold decodeTrap
  repeat' split
  case isFalse => simp_all [Instr.wf, TrapVectors.isDefined, TrapVectors.toList]
  all_goals rfl

/-- The decoder yields well-formed instructions (30_encoding.md R78). -/
theorem decode_wf (p : Params) (w : Word) : (decode p w).wf p = true := by
  unfold decode decodeOperate
  cases opcodeAt p (bitField w 12 4) with
  | trap => exact decodeTrap_wf p w
  | add | and | jsr => dsimp only; split <;> rfl
  | _ => rfl

end Sys2Proof

namespace Sys2Proof.Machine

variable {s t u : State} {i : Instr}

/-- Two reads, one after the other, leave alone what each of them does. -/
theorem ReadFrame.trans (h : ReadFrame s t) (g : ReadFrame t u) : ReadFrame s u where
  regs := g.regs.trans h.regs
  pc := g.pc.trans h.pc
  cond := g.cond.trans h.cond
  run := g.run.trans h.run
  output := g.output.trans h.output
  params := g.params.trans h.params
  input := g.input.trans h.input
  word a h1 h2 := (g.word a (by rwa [h.params]) (by rwa [h.params])).trans (h.word a h1 h2)
  mem_wf := g.mem_wf ∘ h.mem_wf

/-- What the instruction `i` does to the registers, COND, `pc` and the run state, `s` being the state
after its fetch and `t` its next state: what the tables of Safety.lean list, and nothing else. -/
structure Effect (i : Instr) (s t : State) : Prop where
  reg : ∀ r, r ∉ registersWritten s.params i → t.reg r = s.reg r
  flag : ∀ r, flagRegister i = some r → t.cond = condFor s.params.condEnc (t.reg r)
  cond : flagRegister i = none → t.cond = s.cond
  pc : transfersControl i = false → t.pc = s.pc
  run : t.run = if i = .trapHalt then .halted else s.run

/-- A writeback, after reads, is the effect of the instructions that write one register and set COND
from it. -/
theorem Effect.writeback {dr : RegNum} {v : Word} (h : ReadFrame s t)
    (hregs : registersWritten s.params i = [dr]) (hflag : flagRegister i = some dr)
    (hhalt : i ≠ .trapHalt) : Effect i s (t.writeback dr v) where
  reg r hr := by
    have hne : r ≠ dr := by simpa [hregs] using hr
    simp [hne, h.reg]
  flag r hr := by
    obtain rfl : dr = r := Option.some.inj (hflag.symm.trans hr)
    simp [h.params]
  cond hnone := by simp [hflag] at hnone
  pc _ := h.pc
  run := by simp [hhalt, h.run]

/-- Leaving all four alone is the effect of the instructions that set no flags and do not halt. -/
theorem Effect.of_same (hregs : ∀ r, r ∉ registersWritten s.params i → t.reg r = s.reg r)
    (hcond : t.cond = s.cond) (hpc : transfersControl i = false → t.pc = s.pc)
    (hrun : t.run = s.run) (hflag : flagRegister i = none) (hhalt : i ≠ .trapHalt) :
    Effect i s t where
  reg := hregs
  flag r hr := by simp [hflag] at hr
  cond _ := hcond
  pc := hpc
  run := by simp [hhalt, hrun]

/-- A store, after reads, is the effect of the stores. -/
theorem Effect.store {a v : Word} (h : ReadFrame s t) (hflag : flagRegister i = none)
    (hhalt : i ≠ .trapHalt) : Effect i s (t.store a v) :=
  .of_same (fun r _ => h.reg r) h.cond (fun _ => h.pc) h.run hflag hhalt

/-- A link write and a jump is the effect of JSR and JSRR. -/
theorem Effect.link_jump {v w : Word} (hregs : registersWritten s.params i = [7])
    (hflag : flagRegister i = none) (hjump : transfersControl i = true) (hhalt : i ≠ .trapHalt) :
    Effect i s ((s.setReg linkReg v).setPc w) := by
  refine .of_same (fun r hr => ?_) rfl (by simp [hjump]) rfl hflag hhalt
  have hne : r ≠ linkReg := by simpa [hregs, linkReg] using hr
  simp [hne]

/-- The trap entry writes no register but R7, and R7 only where TRAP_WRITES_R7 is set. -/
theorem reg_trapEntry_of_ne {r : RegNum} (h : s.params.trapWritesR7 = true → r ≠ 7) :
    (trapEntry s).reg r = s.reg r := by
  rw [reg_trapEntry, if_neg (fun hw => h hw.1 hw.2)]

/-- A register outside a service's row of the table is not the R7 of its trap entry. -/
theorem ne_seven_of_not_mem {w : Bool} {r : RegNum} {rs : List RegNum}
    (h : r ∉ if w then rs ++ [7] else rs) : (w = true → r ≠ 7) ∧ r ∉ rs := by
  cases w <;> simp_all

/-- The services that write bytes only. -/
theorem Effect.service (bs : List Byte)
    (hregs : registersWritten s.params i = if s.params.trapWritesR7 then [7] else [])
    (hflag : flagRegister i = none) (hhalt : i ≠ .trapHalt) :
    Effect i s ((trapEntry s).emit bs) := by
  refine .of_same (fun r hr => ?_) (trapEntry_cond s) (fun _ => trapEntry_pc s) (trapEntry_run s)
    hflag hhalt
  rw [hregs] at hr
  exact reg_trapEntry_of_ne (ne_seven_of_not_mem (rs := []) hr).1

/-- HALT: the bytes of its notice, and Halted (43_trap.md R146). -/
theorem Effect.trapHalt (bs : List Byte) : Effect .trapHalt s ((trapEntry s).emit bs).halt where
  reg _ hr := reg_trapEntry_of_ne (ne_seven_of_not_mem (rs := []) hr).1
  flag _ hr := by cases hr
  cond _ := trapEntry_cond s
  pc _ := trapEntry_pc s
  run := rfl

/-- The effect of an outcome: that of its next state, where it has one. -/
def Effects (i : Instr) (s : State) : Host.Outcome State Fault Refusal → Prop
  | .next t => Effect i s t
  | .fault _ => True
  | .refused _ => True

/-- GETC: R0 holds the character, with no flags (43_trap.md R141). -/
theorem execTrapGetc_effects (s : State) : Effects .trapGetc s (execTrapGetc s) := by
  unfold execTrapGetc
  cases h : inGet (trapEntry s) with
  | none => trivial
  | some q =>
    obtain ⟨c, t⟩ := q
    obtain ⟨-, ht⟩ := inGet_some h
    rw [ht]
    refine .of_same (fun r hr => ?_) (trapEntry_cond s) (fun _ => trapEntry_pc s)
      (trapEntry_run s) rfl nofun
    obtain ⟨h7, h0⟩ := ne_seven_of_not_mem (rs := [0]) hr
    rw [State.reg_setReg, if_neg (by simpa using h0)]
    exact reg_trapEntry_of_ne h7

/-- IN: R0 holds the character, and COND is its flag (43_trap.md R144). -/
theorem execTrapIn_effects (s : State) : Effects .trapIn s (execTrapIn s) := by
  unfold execTrapIn
  cases h : inGet ((trapEntry s).emit s.params.inPrompt) with
  | none => trivial
  | some q =>
    obtain ⟨c, t⟩ := q
    obtain ⟨-, ht⟩ := inGet_some h
    rw [ht]
    refine ⟨fun r hr => ?_, fun r hr => ?_, nofun, fun _ => trapEntry_pc s, trapEntry_run s⟩
    · obtain ⟨h7, h0⟩ := ne_seven_of_not_mem (rs := [0]) hr
      rw [State.reg_writeback, if_neg (by simpa using h0)]
      exact reg_trapEntry_of_ne h7
    · obtain rfl : 0 = r := Option.some.inj hr
      simp

/-- TRAP with an undefined vector goes on under policy nop only, and then in the same state
(43_trap.md R147). -/
theorem execTrap_undefined (ignored : BitVec 4) {v : BitVec 8}
    (hv : s.params.trapVectors.isDefined v = false) :
    Effects (.trap ignored v) s (execTrap ignored v s) := by
  simp only [TrapVectors.isDefined, TrapVectors.toList, List.contains_cons, List.contains_nil,
    Bool.or_false, Bool.or_eq_false_iff, beq_eq_false_iff_ne] at hv
  obtain ⟨h1, h2, h3, h4, h5, h6⟩ := hv
  simp only [execTrap, h1, h2, h3, h4, h5, h6, if_false]
  cases s.params.undefinedTrapPolicy with
  | fault => trivial
  | nop => exact .of_same (fun _ _ => rfl) rfl (fun _ => rfl) rfl rfl nofun

/-- Every well-formed instruction has its effect, from every state. -/
theorem exec_effects (i : Instr) (s : State) (hi : i.wf s.params = true) :
    Effects i s (exec i s) := by
  cases i with
  | br nzp off =>
    show Effect _ s (if s.branchTaken nzp then _ else s)
    split <;> exact .of_same (fun _ _ => rfl) rfl nofun rfl rfl nofun
  | addReg => exact .writeback (.refl s) rfl rfl nofun
  | addImm => exact .writeback (.refl s) rfl rfl nofun
  | andReg => exact .writeback (.refl s) rfl rfl nofun
  | andImm => exact .writeback (.refl s) rfl rfl nofun
  | not => exact .writeback (.refl s) rfl rfl nofun
  | lea => exact .writeback (.refl s) rfl rfl nofun
  | ld => exact .writeback (memRead_frame _ _) rfl rfl nofun
  | ldr => exact .writeback (memRead_frame _ _) rfl rfl nofun
  | ldi => exact .writeback ((memRead_frame _ _).trans (memRead_frame _ _)) rfl rfl nofun
  | st => exact .store (.refl s) rfl nofun
  | str => exact .store (.refl s) rfl nofun
  | sti => exact .store (memRead_frame _ _) rfl nofun
  | jmp => exact .of_same (fun _ _ => rfl) rfl nofun rfl rfl nofun
  | jsr => exact .link_jump rfl rfl rfl nofun
  | jsrr baseR =>
    show Effect _ s (if s.params.jsrrBaseFirst then _ else _)
    split <;> exact .link_jump rfl rfl rfl nofun
  | reserved8 => trivial
  | reservedD => trivial
  | trapGetc => exact execTrapGetc_effects s
  | trapOut => exact .service _ rfl rfl nofun
  | trapPuts => exact .service _ rfl rfl nofun
  | trapIn => exact execTrapIn_effects s
  | trapPutsp => exact .service _ rfl rfl nofun
  | trapHalt => exact .trapHalt _
  | trap ignored v => exact execTrap_undefined ignored (by simpa [Instr.wf] using hi)

/-- A well-formed instruction with a next state has its effect on it. -/
theorem exec_effect (hi : i.wf s.params = true) (h : exec i s = .next t) : Effect i s t := by
  have heffects := exec_effects i s hi
  rwa [h] at heffects

/-- A step has the effect of the decoded instruction on the state the fetch left. -/
theorem step_effect (h : step s = .next t) :
    Effect (decode s.params (fetch s).1) (fetch s).2 t := by
  refine exec_effect ?_ (step_next h).2
  rw [(fetch_kept s).params]
  exact decode_wf _ _

/-- Settles O14, from the effect of the instruction. -/
theorem registersOutsideTheTableKeep : Obligations.RegistersOutsideTheTableKeep :=
  fun _ _ _ r hi h hr => (exec_effect hi h).reg r hr

/-- Settles O15, from the effect of the instruction. -/
theorem condWrittenExactlyBySetters : Obligations.CondWrittenExactlyBySetters :=
  fun _ _ _ hi h => ⟨(exec_effect hi h).flag, (exec_effect hi h).cond⟩

/-- Settles O16: the fetch increments `pc`, and the instruction leaves it alone. -/
theorem pcMovesOnByOne : Obligations.PcMovesOnByOne :=
  fun _ _ h hjump => (step_effect h).pc hjump

/-- Settles O17: the fetch happens in a running machine and leaves it running. -/
theorem onlyHaltEndsTheRun : Obligations.OnlyHaltEndsTheRun := by
  intro s t h
  have hrun : (fetch s).2.run = .running := (memRead_frame s s.pc).run.trans (step_next h).1
  rw [(step_effect h).run, hrun]
  by_cases hhalt : decode s.params (fetch s).1 = .trapHalt
  · rw [if_pos hhalt]; exact iff_of_true rfl hhalt
  · rw [if_neg hhalt]; exact iff_of_false nofun hhalt

end Sys2Proof.Machine
end

section
/-! PROOFS. `setcc` by the sign of the Word (10_state.md R27), and BR's test flag by flag
(10_state.md R26, 42_control.md R130). -/

namespace Sys2Proof.Machine

/-! ### setcc -/

/-- The zero Word gives Z. -/
theorem condFor_zero (e : CondEnc) : condFor e 0x0000 = e.z := rfl

/-- A Word with bit 15 set gives N. -/
theorem condFor_negative (e : CondEnc) {v : Word} (h : 0x8000 ≤ v.toNat) : condFor e v = e.n := by
  have hzero : v ≠ 0x0000 := by rintro rfl; simp at h
  have hmsb : v.msb = true := by rw [BitVec.msb_eq_decide]; exact decide_eq_true h
  rw [condFor, if_neg hzero, if_pos hmsb]

/-- A Word other than zero with bit 15 clear gives P. -/
theorem condFor_positive (e : CondEnc) {v : Word} (h1 : 0x0001 ≤ v.toNat) (h2 : v.toNat ≤ 0x7FFF) :
    condFor e v = e.p := by
  have hzero : v ≠ 0x0000 := by rintro rfl; simp at h1
  have hmsb : ¬v.msb = true := by rw [BitVec.msb_eq_decide, decide_eq_true_iff]; omega
  rw [condFor, if_neg hzero, if_neg hmsb]

/-- Settles O20, range by range. -/
theorem setccFollowsSign : Obligations.SetccFollowsSign := by
  intro s v
  refine ⟨?_, condFor_negative _, condFor_positive _⟩
  rintro rfl
  exact condFor_zero _

/-! ### BR's test -/

/-- A mask bit selects COND exactly when it is set and COND is the flag it stands for, both being
single bits. -/
theorem maskBit_and_eq_zero_iff {b : Bool} {f c : Word} (hf : ∃ i < 16, f = BitVec.twoPow 16 i)
    (hc : ∃ j < 16, c = BitVec.twoPow 16 j) :
    (if b then f else 0#16) &&& c = 0#16 ↔ ¬(b = true ∧ c = f) := by
  obtain ⟨i, hi, rfl⟩ := hf
  obtain ⟨j, hj, rfl⟩ := hc
  cases b with
  | false => simp
  | true =>
    rw [if_pos rfl, twoPow_and_twoPow, twoPow_inj hj]
    by_cases h : i = j <;> simp [h, twoPow_ne_zero hj, eq_comm]

/-- BR is taken exactly when the mask bit of COND's own flag is set. -/
theorem branchTaken_iff {s : State} (hc : s.condLegal) (hp : s.params.wf = true) (nzp : BitVec 3) :
    s.branchTaken nzp = true ↔
      nzp.getLsbD 2 = true ∧ s.cond = s.params.condEnc.n ∨
      nzp.getLsbD 1 = true ∧ s.cond = s.params.condEnc.z ∨
      nzp.getLsbD 0 = true ∧ s.cond = s.params.condEnc.p := by
  obtain ⟨i, j, k, hi, hj, hk, -, -, -, ep, ez, en⟩ := exists_twoPow_of_wf (condEnc_wf hp)
  have hcond : ∃ l < 16, s.cond = BitVec.twoPow 16 l := by
    rcases hc with e | e | e
    · exact ⟨k, hk, e.trans en⟩
    · exact ⟨j, hj, e.trans ez⟩
    · exact ⟨i, hi, e.trans ep⟩
  simp only [State.branchTaken, branchMask, bne_iff_ne, ne_eq, BitVec.ofNat_eq_ofNat,
    or_and_word, BitVec.or_eq_zero_iff, maskBit_and_eq_zero_iff ⟨k, hk, en⟩ hcond,
    maskBit_and_eq_zero_iff ⟨j, hj, ez⟩ hcond, maskBit_and_eq_zero_iff ⟨i, hi, ep⟩ hcond]
  tauto

/-- The full mask selects every legal COND. -/
theorem branchTaken_full {s : State} (hc : s.condLegal) (hp : s.params.wf = true) :
    s.branchTaken 0b111 = true := by
  rw [branchTaken_iff hc hp]
  simpa using hc

/-- The empty mask selects nothing. -/
theorem branchTaken_empty (s : State) : s.branchTaken 0b000 = false := by
  simp [State.branchTaken]

/-- What BR does, by its test. -/
theorem exec_br (nzp : BitVec 3) (off : BitVec 9) (s : State) :
    exec (.br nzp off) s =
      .next (if s.branchTaken nzp = true then { s with pc := s.pc + off.signExtend 16 } else s) :=
  rfl

/-- Settles O39, from BR's test. -/
theorem branchTestsFlagsByName : Obligations.BranchTestsFlagsByName := by
  intro s nzp off hc hp
  refine ⟨?_, ?_, ?_⟩
  · simp only [exec_br, branchTaken_iff hc hp]
  · rw [exec_br, if_pos (branchTaken_full hc hp)]
  · rw [exec_br, branchTaken_empty, if_neg Bool.false_ne_true]

end Sys2Proof.Machine
end

section
/-! PROOFS. The keyboard poll cell by cell and the datapath reads that make it (20_memory.md R42 to R47),
and what reading memory gives a load and the fetch, at KBSR_ADDR and away from it (R53, R58). -/

namespace Sys2Proof.Machine

variable {s : State}

/-! ### The poll -/

/-- A poll uses up one answer, taken or not. -/
@[simp] theorem poll_draws (s : State) : (poll s).draws = s.draws.tail := by
  rcases poll_cases s with h | ⟨c, rest, hi, hd⟩
  · rw [poll_not_taken h]; rfl
  · rw [poll_taken hi hd]; rfl

@[simp] theorem poll_polls (s : State) : (poll s).polls = s.polls + 1 := by
  rcases poll_cases s with h | ⟨c, rest, hi, hd⟩
  · rw [poll_not_taken h]; rfl
  · rw [poll_taken hi hd]; rfl

/-- Memory after a poll that takes no character: only the status cell is written. -/
theorem word_poll_not_taken (h : s.input = [] ∨ s.nextDraw = false) (a : Word) :
    (poll s).word a = if a = s.params.kbsrAddr then 0x0000 else s.word a := by
  rw [poll_not_taken h, State.word_store, State.word_advanceDraws]

theorem input_poll_not_taken (h : s.input = [] ∨ s.nextDraw = false) :
    (poll s).input = s.input := by
  rw [poll_not_taken h]; rfl

/-- Memory after a poll that takes a character: the data cell is written after the status cell. -/
theorem word_poll_taken {c : Byte} {rest : List Byte} (hi : s.input = c :: rest)
    (hd : s.nextDraw = true) (a : Word) :
    (poll s).word a = if a = s.params.kbdrAddr then zext c
      else if a = s.params.kbsrAddr then s.params.kbsrReady else s.word a := by
  rw [poll_taken hi hd, State.word_store, State.word_store, State.word_setInput,
    State.word_advanceDraws]

theorem input_poll_taken {c : Byte} {rest : List Byte} (hi : s.input = c :: rest)
    (hd : s.nextDraw = true) : (poll s).input = rest := by
  rw [poll_taken hi hd]; rfl

/-- An answer that the host has fixed is the one used (20_memory.md R47). -/
theorem nextDraw_of_draws {d : Bool} {ds : List Bool} (h : s.draws = d :: ds) : s.nextDraw = d := by
  simp [State.nextDraw, h]

/-- Settles O27: only KBSR_ADDR has a class of address whose read polls. -/
theorem plainReadsChangeNothing : Obligations.PlainReadsChangeNothing :=
  fun _ _ h => memRead_of_ne h

/-- Settles O28: the read is a poll followed by a look at the status cell; the poll is taken or not. -/
theorem keyboardReadPolls : Obligations.KeyboardReadPolls := by
  intro s
  have hframe := poll_frame s
  refine ⟨_, _, memRead_kbsr s, ?_, poll_draws s, poll_polls s, fun r _ => hframe.reg r, hframe.pc,
    hframe.cond, hframe.output, ⟨hframe.run, hframe.params⟩, fun _ _ => nextDraw_of_draws⟩
  rcases poll_cases s with h | ⟨c, rest, hi, hd⟩
  · have hword := word_poll_not_taken h
    split
    case h_1 hi hd => simp [hi, hd] at h
    case h_2 => exact ⟨by simp [hword], by simp [hword], input_poll_not_taken h,
      fun a ha => by rw [hword, if_neg ha]⟩
  · have hword := word_poll_taken hi hd
    simp only [hi, hd]
    refine ⟨fun hne => ?_, by rw [hword, if_pos rfl]; rfl, input_poll_taken hi hd,
      fun a hs hk => by rw [hword, if_neg hk, if_neg hs]⟩
    have hready : (poll s).word s.params.kbsrAddr = s.params.kbsrReady := by
      rw [hword, if_neg hne.symm, if_pos rfl]
    exact ⟨hready, hready⟩

/-! ### Loads -/

/-- Everything a writeback changes and leaves alone. -/
theorem writeback_spec (s : State) (dr : RegNum) (v : Word) :
    wroteFlagged s (s.writeback dr v) dr v ∧ (s.writeback dr v).pc = s.pc ∧
      sameMemory s (s.writeback dr v) ∧ samePorts s (s.writeback dr v) ∧
      sameRun s (s.writeback dr v) := by
  refine ⟨⟨by simp, rfl, fun r hr => ?_⟩, rfl, fun _ => rfl, ⟨rfl, rfl, rfl, rfl⟩, rfl, rfl⟩
  rw [State.reg_writeback, if_neg (by simpa using hr)]

/-- A load away from KBSR_ADDR writes back memory's Word and does nothing else. -/
theorem loadInto_of_ne (dr : RegNum) {ea : Word} (h : ea ≠ s.params.kbsrAddr) :
    loadInto dr ea s = s.writeback dr (s.word ea) := by
  rw [loadInto, memRead_of_ne h]

theorem exec_ld (dr : RegNum) (off : BitVec 9) (s : State) :
    exec (.ld dr off) s = .next (loadInto dr (s.pc + off.signExtend 16) s) := rfl

theorem exec_ldi (dr : RegNum) (off : BitVec 9) (s : State) :
    exec (.ldi dr off) s = .next (loadInto dr (memRead s (s.pc + off.signExtend 16)).1
      (memRead s (s.pc + off.signExtend 16)).2) := rfl

theorem exec_ldr (dr baseR : RegNum) (off : BitVec 6) (s : State) :
    exec (.ldr dr baseR off) s = .next (loadInto dr (s.reg baseR + off.signExtend 16) s) := rfl

/-- Settles O32: each load is then the writeback of memory's Word. -/
theorem loadsAwayFromTheKeyboard : Obligations.LoadsAwayFromTheKeyboard := by
  intro s dr baseR off9 off6
  refine ⟨fun h => ⟨_, ?_, writeback_spec _ _ _⟩, fun hptr h => ⟨_, ?_, writeback_spec _ _ _⟩,
    fun h => ⟨_, ?_, writeback_spec _ _ _⟩⟩
  · rw [exec_ld, loadInto_of_ne dr h]
  · rw [exec_ldi, memRead_of_ne hptr, loadInto_of_ne dr h]
  · rw [exec_ldr, loadInto_of_ne dr h]

/-! ### Fetches -/

/-- A step whose fetch is away from KBSR_ADDR executes memory's Word. -/
theorem step_of_pc_ne (hrun : s.run = .running) (hpc : s.pc ≠ s.params.kbsrAddr) :
    step s = exec (decode s.params (s.word s.pc)) (s.setPc (s.pc + 1)) := by
  rw [step_running hrun, fetch_fst, fetch_snd, memRead_of_ne hpc]

/-- A step whose fetch is at KBSR_ADDR executes what its own poll left in the status cell. -/
theorem step_of_pc_eq (hrun : s.run = .running) (hpc : s.pc = s.params.kbsrAddr) :
    step s = exec (decode s.params ((poll s).word s.params.kbsrAddr))
      ((poll s).setPc (s.pc + 1)) := by
  have hread : memRead s s.pc = ((poll s).word s.params.kbsrAddr, poll s) := by
    rw [hpc, memRead_kbsr]
  rw [step_running hrun, fetch_fst, fetch_snd, hread]

theorem exec_st (sr : RegNum) (off : BitVec 9) (s : State) :
    exec (.st sr off) s = .next (s.store (s.pc + off.signExtend 16) (s.reg sr)) := rfl

/-- Settles O37: the store leaves `pc` at the address it wrote, so the next fetch reads it. -/
theorem storeIsFetchedNext : Obligations.StoreIsFetchedNext := by
  intro s sr hrun hpc hnext hdecode
  have hstep : step s = .next ((s.setPc (s.pc + 1)).store (s.pc + 1) (s.reg sr)) := by
    rw [step_of_pc_ne hrun hpc, hdecode, exec_st]
    simp
  refine ⟨_, hstep, rfl, rfl, ?_⟩
  rw [step_of_pc_ne]
  case hrun => exact hrun
  case hpc => exact hnext
  simp [State.setPc, BitVec.add_assoc]

/-- The Word a taken poll leaves is that of a reserved opcode by default (20_memory.md R53). -/
theorem decode_default_kbsrReady : decode defaultParams defaultParams.kbsrReady = .reserved8 0 := by
  decide

theorem encode_default_reserved8 : encode defaultParams (.reserved8 0) = 0x8000 := by decide

/-- The zero Word is a BR with the empty mask by default. -/
theorem decode_default_zero : decode defaultParams 0x0000 = .br 0b000 0 := by decide

theorem exec_reserved8 (x : BitVec 12) (s : State) :
    exec (.reserved8 x) s =
      .fault (.illegalOpcode (s.pc - 1) (encode s.params (.reserved8 x)) s) := rfl

/-- Settles O54, by what the fetch's own poll left in the status cell. -/
theorem fetchFromKeyboardStatus : Obligations.FetchFromKeyboardStatus := by
  intro s hrun hparams hpc
  have hstep := step_of_pc_eq hrun (by rw [hpc, hparams]; rfl)
  rw [hpc] at hstep
  have hframe := poll_frame s
  refine ⟨fun c rest hi hd => ?_, fun h => ?_⟩
  · have hword := word_poll_taken hi hd
    have hready : (poll s).word s.params.kbsrAddr = defaultParams.kbsrReady := by
      rw [hword, hparams, if_neg (by decide), if_pos rfl]
    rw [hready, hparams, decode_default_kbsrReady, exec_reserved8, State.setPc_params,
      hframe.params, hparams, encode_default_reserved8, State.setPc_pc,
      BitVec.add_sub_cancel] at hstep
    refine ⟨_, hstep, rfl, ?_, input_poll_taken hi hd⟩
    rw [State.word_setPc, hword, hparams]; rfl
  · have hword := word_poll_not_taken h
    rw [hword, if_pos rfl, hparams, decode_default_zero, exec_br, branchTaken_empty,
      if_neg Bool.false_ne_true] at hstep
    refine ⟨_, hstep, rfl, ?_, input_poll_not_taken h, fun r _ => hframe.reg r, hframe.cond⟩
    rw [State.word_setPc, hword, hparams]; rfl

end Sys2Proof.Machine
end

section
/-! PROOFS. The decoder and the encoder: the fields of a Word format by format (30_encoding.md R62, R66),
the dispatch of TRAP (R78), and that decoding inverts encoding. -/

namespace Sys2Proof

/-! ### Fields -/

/-- A field from bit 0 on, as a number. -/
theorem bitField_zero_toNat (w : Word) (n : Nat) : (bitField w 0 n).toNat = w.toNat % 2 ^ n := by
  rw [bitField_toNat, pow_zero, Nat.div_one]

/-- The mode bit and long_flag, where set (30_encoding.md R62). -/
theorem bit_set_of_bitField {w : Word} {lo : Nat} (h : bitField w lo 1 = 1) :
    w.toNat / 2 ^ lo % 2 = 1 := by
  have hbit := bitField_toNat w lo 1
  rw [h] at hbit
  exact hbit.symm

/-- The mode bit and long_flag, where clear (30_encoding.md R62). -/
theorem bit_clear_of_bitField {w : Word} {lo : Nat} (h : ¬bitField w lo 1 = 1) :
    w.toNat / 2 ^ lo % 2 = 0 :=
  (Nat.mod_two_eq_zero_or_one _).resolve_right fun hbit => h (bitField_eq hbit)

/-- The fields of a Word of format OPR, whatever its ignored bits (30_encoding.md R66, R69). -/
theorem bitField_opr (o : BitVec 4) (dr sr1 sr2 : BitVec 3) (x : BitVec 2) :
    bitField (o ++ dr ++ sr1 ++ 0#1 ++ x ++ sr2) 12 4 = o ∧
      bitField (o ++ dr ++ sr1 ++ 0#1 ++ x ++ sr2) 9 3 = dr ∧
      bitField (o ++ dr ++ sr1 ++ 0#1 ++ x ++ sr2) 6 3 = sr1 ∧
      bitField (o ++ dr ++ sr1 ++ 0#1 ++ x ++ sr2) 5 1 = 0 ∧
      bitField (o ++ dr ++ sr1 ++ 0#1 ++ x ++ sr2) 0 3 = sr2 := by
  simp (disch := decide) only [bitField, BitVec.extractLsb'_append_eq_of_le,
    BitVec.extractLsb'_append_eq_of_add_le, BitVec.extractLsb'_eq_self, Nat.reduceSub,
    BitVec.ofNat_eq_ofNat, and_self]

/-- The fields of a Word of format JSRR, whatever its ignored bits (30_encoding.md R66, R69). -/
theorem bitField_jsrr (o : BitVec 4) (x : BitVec 2) (b : BitVec 3) (y : BitVec 6) :
    bitField (o ++ 0#1 ++ x ++ b ++ y) 12 4 = o ∧ bitField (o ++ 0#1 ++ x ++ b ++ y) 11 1 = 0 ∧
      bitField (o ++ 0#1 ++ x ++ b ++ y) 6 3 = b := by
  simp (disch := decide) only [bitField, BitVec.extractLsb'_append_eq_of_le,
    BitVec.extractLsb'_append_eq_of_add_le, BitVec.extractLsb'_eq_self, Nat.reduceSub,
    BitVec.ofNat_eq_ofNat, and_self]

/-- The fields of a Word of format TRAP (30_encoding.md R66). -/
theorem bitField_trap (o x : BitVec 4) (v : BitVec 8) :
    bitField (o ++ x ++ v) 12 4 = o ∧ bitField (o ++ x ++ v) 8 4 = x ∧
      bitField (o ++ x ++ v) 0 8 = v := by
  simp (disch := decide) only [bitField, BitVec.extractLsb'_append_eq_of_le,
    BitVec.extractLsb'_append_eq_of_add_le, BitVec.extractLsb'_eq_self, Nat.reduceSub, and_self]

/-- A field of a canonical encoding is one of its low twelve bits, below the opcode. -/
theorem bitField_encode (p : Params) (i : Instr) {lo n : Nat} (h : lo + n ≤ 12) :
    bitField (encode p i) lo n = (encodeFields p i).extractLsb' lo n :=
  BitVec.extractLsb'_append_eq_of_add_le h

/-! ### The dispatch of TRAP -/

/-- A vector that is none of the six gives TRAP's generic row (30_encoding.md R78). -/
theorem decodeTrap_of_undefined {t : TrapVectors} {w : Word}
    (h : t.isDefined (bitField w 0 8) = false) :
    decodeTrap t w = .trap (bitField w 8 4) (bitField w 0 8) := by
  simp only [TrapVectors.isDefined, TrapVectors.toList, List.contains_cons, List.contains_nil,
    Bool.or_false, Bool.or_eq_false_iff, beq_eq_false_iff_ne] at h
  obtain ⟨h1, h2, h3, h4, h5, h6⟩ := h
  simp only [decodeTrap, h1, h2, h3, h4, h5, h6, if_false]

/-- What the dispatch can give: the generic row, or the service of the Word's vector. -/
theorem decodeTrap_cases (t : TrapVectors) (w : Word) :
    decodeTrap t w = .trap (bitField w 8 4) (bitField w 0 8) ∨
      decodeTrap t w = .trapGetc ∧ bitField w 0 8 = t.getc ∨
      decodeTrap t w = .trapOut ∧ bitField w 0 8 = t.out ∨
      decodeTrap t w = .trapPuts ∧ bitField w 0 8 = t.puts ∨
      decodeTrap t w = .trapIn ∧ bitField w 0 8 = t.inp ∨
      decodeTrap t w = .trapPutsp ∧ bitField w 0 8 = t.putsp ∨
      decodeTrap t w = .trapHalt ∧ bitField w 0 8 = t.halt := by
  unfold decodeTrap
  repeat' split
  all_goals simp [*]

/-- With a defined vector the dispatch looks at nothing else (30_encoding.md R69). -/
theorem decodeTrap_congr {t : TrapVectors} {w w' : Word} (h : bitField w 0 8 = bitField w' 0 8)
    (hdef : t.isDefined (bitField w 0 8) = true) : decodeTrap t w = decodeTrap t w' := by
  unfold decodeTrap
  rw [← h]
  repeat' split
  case isFalse => simp_all [TrapVectors.isDefined, TrapVectors.toList]
  all_goals rfl

/-- Every row of the dispatch has the role of TRAP. -/
theorem decodeTrap_opcode (t : TrapVectors) (w : Word) : (decodeTrap t w).opcode = .trap := by
  unfold decodeTrap
  repeat' split
  all_goals rfl

/-! ### Decoding -/

/-- The decoded instruction has the role of the Word's opcode value (30_encoding.md R61, R65). -/
theorem decode_opcode (p : Params) (w : Word) :
    (decode p w).opcode = opcodeAt p (bitField w 12 4) := by
  unfold decode decodeOperate
  cases opcodeAt p (bitField w 12 4) with
  | trap => exact decodeTrap_opcode _ w
  | add | and | jsr => dsimp only; split <;> rfl
  | _ => rfl

/-- Settles O3: the opcode field is the Word divided by 2 ^ 12. -/
theorem decodeYieldsWellFormed : Obligations.DecodeYieldsWellFormed := by
  intro p w
  have hfield : bitField w 12 4 = BitVec.ofNat 4 (w.toNat / 2 ^ 12) :=
    bitField_eq (BitVec.toNat_ofNat _ _).symm
  exact ⟨decode_wf p w, hfield ▸ decode_opcode p w⟩

/-- Settles O4, role by role; ADD, AND and JSR by their mode bit, TRAP by its dispatch. -/
theorem fieldsStandAtTheirBits : Obligations.FieldsStandAtTheirBits := by
  intro p w
  have hfield := bitField_toNat w
  have hlow := bitField_zero_toNat w
  unfold decode decodeOperate
  cases opcodeAt p (bitField w 12 4) with
  | br | ld | st | ldi | sti | lea => exact ⟨hfield 9 3, hlow 9⟩
  | ldr | str => exact ⟨hfield 9 3, hfield 6 3, hlow 6⟩
  | not => exact ⟨hfield 9 3, hfield 6 3⟩
  | jmp => exact hfield 6 3
  | reserved8 | reservedD => exact hlow 12
  | add | and =>
    by_cases hmode : bitField w 5 1 = 1
    · simp only [hmode, if_true]
      exact ⟨bit_set_of_bitField hmode, hfield 9 3, hfield 6 3, hlow 5⟩
    · simp only [hmode, if_false]
      exact ⟨bit_clear_of_bitField hmode, hfield 9 3, hfield 6 3, hlow 3⟩
  | jsr =>
    by_cases hlong : bitField w 11 1 = 1
    · simp only [hlong, if_true]
      exact ⟨bit_set_of_bitField hlong, hlow 11⟩
    · simp only [hlong, if_false]
      exact ⟨bit_clear_of_bitField hlong, hfield 6 3⟩
  | trap =>
    dsimp only
    rcases decodeTrap_cases p.trapVectors w with
      e | ⟨e, hv⟩ | ⟨e, hv⟩ | ⟨e, hv⟩ | ⟨e, hv⟩ | ⟨e, hv⟩ | ⟨e, hv⟩ <;> rw [e]
    case inl => exact ⟨hfield 8 4, hlow 8⟩
    all_goals exact hv ▸ hlow 8

/-- Opcode ADD or AND with the mode bit clear, whatever the two bits above SR2
(30_encoding.md R67, R69). -/
theorem decodeOperate_opr (o : BitVec 4) (dr sr1 sr2 : BitVec 3) (x : BitVec 2)
    (reg : RegNum → RegNum → RegNum → Instr) (imm : RegNum → RegNum → BitVec 5 → Instr) :
    decodeOperate (o ++ dr ++ sr1 ++ 0#1 ++ x ++ sr2) reg imm = reg dr sr1 sr2 := by
  obtain ⟨-, hdr, hsr1, hmode, hsr2⟩ := bitField_opr o dr sr1 sr2 x
  rw [decodeOperate, hmode, if_neg (by decide), hdr, hsr1, hsr2]

/-- Settles O5: by their formats, the fields of the two Words are the same. -/
theorem ignoredBitsChangeNothing : Obligations.IgnoredBitsChangeNothing := by
  intro p o
  refine ⟨fun h dr sr1 sr2 x => ?_, fun h dr sr1 sr2 x => ?_, fun h baseR x y => ?_,
    fun h dr sr y => ?_, fun h baseR x y => ?_, fun h x v hv => ?_⟩
  · rw [decode, (bitField_opr o dr sr1 sr2 x).1, h]
    exact decodeOperate_opr o dr sr1 sr2 x _ _
  · rw [decode, (bitField_opr o dr sr1 sr2 x).1, h]
    exact decodeOperate_opr o dr sr1 sr2 x _ _
  · obtain ⟨ho, hlong, hbase⟩ := bitField_jsrr o x baseR y
    simp [decode, ho, h, hlong, hbase]
  · obtain ⟨ho, hdr, hsr, -⟩ := bitField_base o dr sr y
    simp only [decode, ho, h, hdr, hsr]
  · obtain ⟨ho, -, hbase, -⟩ := bitField_base o x baseR y
    simp only [decode, ho, h, hbase]
  · obtain ⟨ho, -, hvec⟩ := bitField_trap o x v
    obtain ⟨ho', -, hvec'⟩ := bitField_trap o 0#4 v
    simp only [decode, ho, ho', h]
    exact decodeTrap_congr (hvec.trans hvec'.symm) (hvec.symm ▸ hv)

/-- Settles O1: each Word is decoded under the default parameters. -/
theorem specVectorWordsDecode : Obligations.SpecVectorWordsDecode := by
  unfold Obligations.SpecVectorWordsDecode
  decide

/-! ### Decoding inverts encoding -/

/-- The six vectors of a well-formed record differ; listed from the last, each from those that the
dispatch tries before it. -/
theorem trapVectors_nodup {p : Params} (hp : p.wf = true) :
    [p.trapVectors.halt, p.trapVectors.putsp, p.trapVectors.inp, p.trapVectors.puts,
      p.trapVectors.out, p.trapVectors.getc].Nodup :=
  List.nodup_reverse.mpr ((TrapVectors.wf_iff _).mp ((Params.wf_iff p).mp hp).2.1).1

/-- The encoding of a well-formed instruction decodes to it. -/
theorem decode_encode {p : Params} (hp : p.wf = true) {i : Instr} (hi : i.wf p = true) :
    decode p (encode p i) = i := by
  rw [decode, opcodeAt_encode p hp]
  cases i with
  | br | ld | st | ldi | sti | lea | ldr | str | not | jmp | reserved8 | reservedD =>
    simp (disch := decide) only [Instr.opcode, bitField_encode, encodeFields, Nat.reduceSub,
      BitVec.extractLsb'_append_eq_of_le, BitVec.extractLsb'_append_eq_of_add_le,
      BitVec.extractLsb'_eq_self]
  | addReg | addImm | andReg | andImm | jsr | jsrr =>
    simp (disch := decide) only [Instr.opcode, decodeOperate, bitField_encode, encodeFields,
      BitVec.extractLsb'_append_eq_of_le, BitVec.extractLsb'_append_eq_of_add_le,
      BitVec.extractLsb'_eq_self, Nat.reduceSub]
    rfl
  | trapGetc | trapOut | trapPuts | trapIn | trapPutsp | trapHalt =>
    have hne := trapVectors_nodup hp
    simp only [List.nodup_cons, List.mem_cons, not_or] at hne
    simp (disch := decide) only [Instr.opcode, decodeTrap, bitField_encode, encodeFields,
      BitVec.extractLsb'_append_eq_of_add_le, BitVec.extractLsb'_eq_self, hne, if_true, if_false]
  | trap ignored v =>
    have hvec : bitField (encode p (.trap ignored v)) 0 8 = v :=
      (bitField_encode p _ (by decide)).trans BitVec.extractLsb'_append_eq_right
    have hbits : bitField (encode p (.trap ignored v)) 8 4 = ignored :=
      (bitField_encode p _ (by decide)).trans BitVec.extractLsb'_append_eq_left
    have hundef : p.trapVectors.isDefined v = false := by simpa [Instr.wf] using hi
    rw [Instr.opcode, decodeTrap_of_undefined (hvec.symm ▸ hundef), hbits, hvec]

/-- Settles O2, from the fields of each format and, for TRAP, from its dispatch. -/
theorem decodeInvertsEncode : Obligations.DecodeInvertsEncode :=
  fun _ _ hp hi => decode_encode hp hi

end Sys2Proof
end

section
/-! PROOFS. The instruction cycle as the machine runs it: what a step executes, that a running machine is
never refused and a halted one always is (30_encoding.md R72, R75), and the Word placed for the next
fetch (20_memory.md R53). -/

namespace Sys2Proof.Machine

variable {s : State}

/-- No instruction is refused in a running machine (30_encoding.md R75). -/
theorem step_ne_refused (h : s.run = .running) (r : Refusal) : step s ≠ .refused r := by
  intro hr
  have hends := step_ends h
  rwa [hr] at hends

/-- A Word of the table's full width is the Word with its number. -/
theorem tableWord_sixteen {w : Nat} (h : w < 2 ^ 16) : tableWord 16 w = BitVec.ofNat 16 w := by
  rw [tableWord, Nat.mod_eq_of_lt h]

/-- Memory after a Word is placed: that Word at `pc`, every other one as before. -/
theorem word_withFetchWord (s : State) (nbits w : Nat) (a : Word) :
    (s.withFetchWord nbits w).word a = if a = s.pc then tableWord nbits w else s.word a :=
  s.word_store s.pc a (tableWord nbits w)

/-- The step after a Word is placed executes that Word, where the fetch does not poll. -/
theorem step_withFetchWord (nbits w : Nat) (h : s.pc ≠ s.params.kbsrAddr) :
    step (s.withFetchWord nbits w) =
      exec (decode s.params (tableWord nbits w)) ((s.withFetchWord nbits w).setPc (s.pc + 1)) := by
  have hstep := step_of_pc_ne (s := s.withFetchWord nbits w) rfl h
  rwa [word_withFetchWord, if_pos (show (s.withFetchWord nbits w).pc = s.pc from rfl)] at hstep

/-- Settles O12, from the outcomes a step can have. -/
theorem runningIsNeverRefused : Obligations.RunningIsNeverRefused :=
  fun _ r h => step_ne_refused h r

/-- Settles O10: the fetch is a datapath read, and a plain one away from KBSR_ADDR. -/
theorem stepRunsDecodedInstruction : Obligations.StepRunsDecodedInstruction :=
  fun _ hrun => ⟨step_of_pc_ne hrun, step_running hrun⟩

/-- Settles O11: a run from a halted machine ends at its first step. -/
theorem haltedHasNoStep : Obligations.HaltedHasNoStep :=
  fun _ h => ⟨step_halted h, fun k => run_succ_refused Sys2Proof.core k (step_halted h)⟩

/-- Settles O60: the state executed on is the one with the Word stored, Running, and `pc` moved on. -/
theorem placedWordRunsNext : Obligations.PlacedWordRunsNext := by
  intro s w hw hpc
  have hstep := step_withFetchWord 16 w hpc
  rw [tableWord_sixteen hw] at hstep
  refine ⟨_, hstep, rfl, ?_, rfl, fun a ha => ?_, fun _ _ => rfl, rfl, ⟨rfl, rfl, rfl, rfl⟩, rfl⟩
  · rw [State.word_setPc, word_withFetchWord, if_pos rfl, tableWord_sixteen hw]
  · rw [State.word_setPc, word_withFetchWord, if_neg ha]

end Sys2Proof.Machine
end

section
/-! PROOFS. The operate instructions (40_operate.md): each is the writeback of its result; the results as
numbers and bit by bit, and the format with an immediate (30_encoding.md R66, R67). -/

namespace Sys2Proof

/-- Opcode ADD or AND with the mode bit set (30_encoding.md R67). -/
theorem decodeOperate_opi (o : BitVec 4) (dr sr1 : BitVec 3) (imm5 : BitVec 5)
    (reg : RegNum → RegNum → RegNum → Instr) (imm : RegNum → RegNum → BitVec 5 → Instr) :
    decodeOperate (o ++ dr ++ sr1 ++ 1#1 ++ imm5) reg imm = imm dr sr1 imm5 := by
  obtain ⟨-, hdr, hsr1, hmode, himm⟩ := bitField_opi o dr sr1 imm5
  rw [decodeOperate, if_pos hmode, hdr, hsr1, himm]

end Sys2Proof

namespace Sys2Proof.Machine

/-! ### What each instruction writes back -/

theorem exec_addReg (dr sr1 sr2 : RegNum) (s : State) :
    exec (.addReg dr sr1 sr2) s = .next (s.writeback dr (s.reg sr1 + s.reg sr2)) := rfl

theorem exec_addImm (dr sr1 : RegNum) (imm5 : BitVec 5) (s : State) :
    exec (.addImm dr sr1 imm5) s = .next (s.writeback dr (s.reg sr1 + sext imm5)) := rfl

theorem exec_andReg (dr sr1 sr2 : RegNum) (s : State) :
    exec (.andReg dr sr1 sr2) s = .next (s.writeback dr (s.reg sr1 &&& s.reg sr2)) := rfl

theorem exec_andImm (dr sr1 : RegNum) (imm5 : BitVec 5) (s : State) :
    exec (.andImm dr sr1 imm5) s = .next (s.writeback dr (s.reg sr1 &&& sext imm5)) := rfl

theorem exec_not (dr sr : RegNum) (s : State) :
    exec (.not dr sr) s = .next (s.writeback dr (~~~(s.reg sr))) := rfl

/-! ### The results -/

/-- Settles O22: the sum of two Words wraps modulo 2^16. -/
theorem addRegisterResult : Obligations.AddRegisterResult :=
  fun s dr sr1 sr2 => ⟨_, _, exec_addReg dr sr1 sr2 s, BitVec.toNat_add _ _, writeback_spec _ _ _⟩

/-- Settles O23: a sum with a sign-extended field is the sum of integers modulo 2^16. -/
theorem addImmediateResult : Obligations.AddImmediateResult := by
  intro s dr sr1 imm5
  refine ⟨fun o ho => ?_, _, _, exec_addImm dr sr1 imm5 s, add_sext _ imm5 (by decide),
    writeback_spec _ _ _⟩
  rw [decode, (bitField_opi o dr sr1 imm5).1, ho]
  exact decodeOperate_opi o dr sr1 imm5 _ _

/-- Settles O24: the and of two Words is taken bit by bit. -/
theorem andRegisterResult : Obligations.AndRegisterResult :=
  fun s dr sr1 sr2 => ⟨_, _, exec_andReg dr sr1 sr2 s, fun _ => BitVec.getLsbD_and,
    writeback_spec _ _ _⟩

/-- Settles O25: the immediate's bits are those of its sign extension, below its width and above. -/
theorem andImmediateResult : Obligations.AndImmediateResult := by
  intro s dr sr1 imm5
  refine ⟨fun o ho => ?_, _, _, exec_andImm dr sr1 imm5 s, fun i hi => ?_, fun i hi hw => ?_,
    writeback_spec _ _ _⟩
  · rw [decode, (bitField_opi o dr sr1 imm5).1, ho]
    exact decodeOperate_opi o dr sr1 imm5 _ _
  · rw [BitVec.getLsbD_and, getLsbD_sext_of_lt imm5 (by decide) hi]
  · rw [BitVec.getLsbD_and, getLsbD_sext_of_le imm5 hi hw]

/-- Settles O26: the complement of a Word is its distance from the greatest one. -/
theorem notResult : Obligations.NotResult :=
  fun s dr sr => ⟨_, _, exec_not dr sr s, BitVec.toNat_not, writeback_spec _ _ _⟩

end Sys2Proof.Machine
end

section
/-! PROOFS. Loads, LEA and stores (41_load_store.md): their two formats (30_encoding.md R66), what a
writeback and a store do after the datapath reads before them, and that no other instruction touches
memory or polls. -/

namespace Sys2Proof

/-! ### Formats -/

/-- The opcode roles whose Words have format PCREL, each with its instruction (30_encoding.md R66). -/
inductive PcrelFormat : Opcode → (RegNum → BitVec 9 → Instr) → Prop where
  | ld : PcrelFormat .ld .ld
  | ldi : PcrelFormat .ldi .ldi
  | lea : PcrelFormat .lea .lea
  | st : PcrelFormat .st .st
  | sti : PcrelFormat .sti .sti

/-- The opcode roles whose Words have format BASE, each with its instruction (30_encoding.md R66). -/
inductive BaseFormat : Opcode → (RegNum → RegNum → BitVec 6 → Instr) → Prop where
  | ldr : BaseFormat .ldr .ldr
  | str : BaseFormat .str .str

variable {p : Params} {o : BitVec 4} {role : Opcode}

theorem decode_pcrel {mk : RegNum → BitVec 9 → Instr} (hformat : PcrelFormat role mk)
    (h : opcodeAt p o = role) (r : RegNum) (off : BitVec 9) :
    decode p (o ++ r ++ off) = mk r off := by
  obtain ⟨ho, hr, hoff⟩ := bitField_pcrel o r off
  cases hformat <;> simp only [decode, ho, h, hr, hoff]

theorem decode_base {mk : RegNum → RegNum → BitVec 6 → Instr} (hformat : BaseFormat role mk)
    (h : opcodeAt p o = role) (r b : RegNum) (off : BitVec 6) :
    decode p (o ++ r ++ b ++ off) = mk r b off := by
  obtain ⟨ho, hr, hb, hoff⟩ := bitField_base o r b off
  cases hformat <;> simp only [decode, ho, h, hr, hb, hoff]

end Sys2Proof

namespace Sys2Proof.Machine

variable {s t u : State}

/-! ### Instructions that do not access memory -/

/-- Memory and the poll answers are untouched. -/
structure NoAccess (s t : State) : Prop where
  mem : t.mem = s.mem
  draws : t.draws = s.draws
  polls : t.polls = s.polls

theorem NoAccess.trans (h : NoAccess s t) (g : NoAccess t u) : NoAccess s u :=
  ⟨g.mem.trans h.mem, g.draws.trans h.draws, g.polls.trans h.polls⟩

theorem NoAccess.sameMemory (h : NoAccess s t) : sameMemory s t := fun a => by
  rw [State.word, h.mem, State.word]

theorem NoAccess.trapEntry (s : State) : NoAccess s (trapEntry s) :=
  ⟨trapEntry_mem s, trapEntry_draws s, trapEntry_polls s⟩

/-- GETC and IN take their character from the input source without a poll (43_trap.md R149). -/
theorem NoAccess.inGet {c : Byte} (h : inGet s = some (c, t)) : NoAccess s t := by
  rw [(inGet_some h).2]
  exact ⟨rfl, rfl, rfl⟩

/-- A service that writes bytes only. -/
theorem NoAccess.service (s : State) (bs : List Byte) :
    NoAccess s ((Machine.trapEntry s).emit bs) :=
  (NoAccess.trapEntry s).trans ⟨rfl, rfl, rfl⟩

/-- HALT: the bytes of its notice, and Halted (43_trap.md R146). -/
theorem NoAccess.trapHalt (s : State) (bs : List Byte) :
    NoAccess s ((Machine.trapEntry s).emit bs).halt :=
  (NoAccess.service s bs).trans ⟨rfl, rfl, rfl⟩

/-- An outcome whose next state, where it has one, is reached without touching memory or polling. -/
def NoAccesses (s : State) : Host.Outcome State Fault Refusal → Prop
  | .next t => NoAccess s t
  | .fault _ => True
  | .refused _ => True

theorem execTrapGetc_noAccesses (s : State) : NoAccesses s (execTrapGetc s) := by
  unfold execTrapGetc
  cases h : inGet (trapEntry s) with
  | none => trivial
  | some q => exact ((NoAccess.trapEntry s).trans (.inGet h)).trans ⟨rfl, rfl, rfl⟩

theorem execTrapIn_noAccesses (s : State) : NoAccesses s (execTrapIn s) := by
  unfold execTrapIn
  cases h : inGet ((trapEntry s).emit s.params.inPrompt) with
  | none => trivial
  | some q => exact ((NoAccess.service s _).trans (.inGet h)).trans ⟨rfl, rfl, rfl⟩

/-- TRAP, vector by vector (43_trap.md R140, R147). -/
theorem execTrap_noAccesses (ignored : BitVec 4) (v : BitVec 8) (s : State) :
    NoAccesses s (execTrap ignored v s) := by
  unfold execTrap
  split
  · exact execTrapGetc_noAccesses s
  split
  · exact .service s _
  split
  · exact .service s _
  split
  · exact execTrapIn_noAccesses s
  split
  · exact .service s _
  split
  · exact .trapHalt s _
  cases s.params.undefinedTrapPolicy with
  | fault => trivial
  | nop => exact ⟨rfl, rfl, rfl⟩

/-- No instruction but the loads and stores touches memory or polls. -/
theorem exec_noAccesses {i : Instr} (hi : accessesMemory i = false) (s : State) :
    NoAccesses s (exec i s) := by
  cases i with
  | ld | ldi | ldr | st | sti | str => cases hi
  | br nzp off =>
    show NoAccess s (if s.branchTaken nzp then _ else s)
    split <;> exact ⟨rfl, rfl, rfl⟩
  | jsrr baseR =>
    show NoAccess s (if s.params.jsrrBaseFirst then _ else _)
    split <;> exact ⟨rfl, rfl, rfl⟩
  | addReg | addImm | andReg | andImm | not | lea | jmp | jsr => exact ⟨rfl, rfl, rfl⟩
  | reserved8 | reservedD => trivial
  | trapGetc => exact execTrapGetc_noAccesses s
  | trapIn => exact execTrapIn_noAccesses s
  | trapOut | trapPuts | trapPutsp => exact .service s _
  | trapHalt => exact .trapHalt s _
  | trap ignored v => exact execTrap_noAccesses ignored v s

/-- Settles O18, instruction by instruction. -/
theorem onlyMemoryInstructionsTouchMemory : Obligations.OnlyMemoryInstructionsTouchMemory := by
  intro i s t hi h
  have hquiet := exec_noAccesses hi s
  rw [h] at hquiet
  exact ⟨hquiet.sameMemory, hquiet.draws, hquiet.polls⟩

/-! ### Loads and LEA -/

/-- A writeback after reads: all that it does not write is as the reads left it. -/
theorem ReadFrame.writeback_spec (h : ReadFrame s t) (dr : RegNum) (v : Word) :
    wroteFlagged s (t.writeback dr v) dr v ∧ (t.writeback dr v).pc = s.pc ∧
      sameMemory t (t.writeback dr v) ∧ samePorts t (t.writeback dr v) ∧
      sameRun s (t.writeback dr v) := by
  obtain ⟨⟨hdr, hcond, hregs⟩, hpc, hmem, hports, hrun, hparams⟩ := Machine.writeback_spec t dr v
  exact ⟨⟨hdr, by rw [hcond, h.params], fun r hr => (hregs r hr).trans (h.reg r)⟩,
    hpc.trans h.pc, hmem, hports, hrun.trans h.run, hparams.trans h.params⟩

theorem exec_lea (dr : RegNum) (off : BitVec 9) (s : State) :
    exec (.lea dr off) s = .next (s.writeback dr (s.pc + sext off)) := rfl

/-- Settles O29: a writeback after one read. -/
theorem loadResult : Obligations.LoadResult := fun s dr off =>
  ⟨fun _ ho => decode_pcrel .ld ho dr off, _, exec_ld dr off s,
    (memRead_frame s _).writeback_spec dr _⟩

/-- Settles O30: a writeback after two reads. -/
theorem loadIndirectResult : Obligations.LoadIndirectResult := fun s dr off =>
  ⟨fun _ ho => decode_pcrel .ldi ho dr off, _, _, _, _, _, rfl, rfl, exec_ldi dr off s,
    ((memRead_frame s _).trans (memRead_frame _ _)).writeback_spec dr _⟩

/-- Settles O31: a writeback after one read, whose address is of the state before both. -/
theorem loadBaseOffsetResult : Obligations.LoadBaseOffsetResult := fun s dr baseR off =>
  ⟨fun _ ho => decode_base .ldr ho dr baseR off, _, exec_ldr dr baseR off s,
    (memRead_frame s _).writeback_spec dr _⟩

/-- Settles O33: a writeback with no read before it, of a sum with a sign-extended field. -/
theorem loadEffectiveAddressResult : Obligations.LoadEffectiveAddressResult := fun s dr off =>
  ⟨fun _ ho => decode_pcrel .lea ho dr off, _, _, exec_lea dr off s,
    add_sext _ off (by decide), Machine.writeback_spec s dr _⟩

/-! ### Stores -/

/-- A store after reads: every other Word is as the reads left it, and no register, flag or port is
touched (20_memory.md R48). -/
theorem ReadFrame.store_spec (h : ReadFrame s t) (a v : Word) :
    (t.store a v).word a = v ∧ (∀ b, b ≠ a → (t.store a v).word b = t.word b) ∧
      sameRegsBut s (t.store a v) [] ∧ (t.store a v).cond = s.cond ∧ (t.store a v).pc = s.pc ∧
      samePorts t (t.store a v) ∧ sameRun s (t.store a v) :=
  ⟨by rw [State.word_store, if_pos rfl], fun b hb => by rw [State.word_store, if_neg hb],
    fun r _ => h.reg r, h.cond, h.pc, ⟨rfl, rfl, rfl, rfl⟩, h.run, h.params⟩

theorem exec_sti (sr : RegNum) (off : BitVec 9) (s : State) :
    exec (.sti sr off) s = .next ((memRead s (s.pc + off.signExtend 16)).2.store
      (memRead s (s.pc + off.signExtend 16)).1 (s.reg sr)) := rfl

theorem exec_str (sr baseR : RegNum) (off : BitVec 6) (s : State) :
    exec (.str sr baseR off) s =
      .next (s.store (s.reg baseR + off.signExtend 16) (s.reg sr)) := rfl

/-- Settles O34: a store with no read before it. -/
theorem storeResult : Obligations.StoreResult := fun s sr off =>
  ⟨fun _ ho => decode_pcrel .st ho sr off, _, exec_st sr off s,
    (ReadFrame.refl s).store_spec _ _⟩

/-- Settles O35: a store after one read. -/
theorem storeIndirectResult : Obligations.StoreIndirectResult := fun s sr off =>
  ⟨fun _ ho => decode_pcrel .sti ho sr off, _, _, _, rfl, exec_sti sr off s,
    (memRead_frame s _).store_spec _ _⟩

/-- Settles O36: a store with no read before it, also where the base is the source. -/
theorem storeBaseOffsetResult : Obligations.StoreBaseOffsetResult := fun s sr baseR off =>
  ⟨fun _ ho => decode_base .str ho sr baseR off, _, exec_str sr baseR off s,
    (ReadFrame.refl s).store_spec _ _⟩

end Sys2Proof.Machine
end

section
/-! PROOFS. Control transfer (42_control.md): a jump changes `pc` alone and a link jump R7 as well; BR's
test under the COND_ENC that R130 names; the formats of BR and JSR (30_encoding.md R66). -/

namespace Sys2Proof

/-! ### Formats -/

variable {p : Params} {o : BitVec 4}

theorem decode_br (h : opcodeAt p o = .br) (nzp : BitVec 3) (off : BitVec 9) :
    decode p (o ++ nzp ++ off) = .br nzp off := by
  obtain ⟨ho, hnzp, hoff⟩ := bitField_pcrel o nzp off
  simp only [decode, ho, h, hnzp, hoff]

theorem decode_jsr (h : opcodeAt p o = .jsr) (off : BitVec 11) :
    decode p (o ++ 1#1 ++ off) = .jsr off := by
  obtain ⟨ho, hmode, hoff⟩ := bitField_jsr o off
  simp only [decode, ho, h, hmode, hoff, if_true]

end Sys2Proof

namespace Sys2Proof.Machine

/-! ### Jumps -/

/-- Everything a jump leaves alone. -/
theorem setPc_spec (s : State) (a : Word) :
    sameRegsBut s (s.setPc a) [] ∧ (s.setPc a).cond = s.cond ∧ sameMemory s (s.setPc a) ∧
      samePorts s (s.setPc a) ∧ sameRun s (s.setPc a) :=
  ⟨fun _ _ => rfl, rfl, fun _ => rfl, ⟨rfl, rfl, rfl, rfl⟩, rfl, rfl⟩

theorem exec_jmp (baseR : RegNum) (s : State) :
    exec (.jmp baseR) s = .next (s.setPc (s.reg baseR)) := rfl

/-- Settles O40: a jump to the base register. -/
theorem jumpResult : Obligations.JumpResult := fun s baseR =>
  ⟨_, exec_jmp baseR s, rfl, setPc_spec s _⟩

/-! ### BR -/

/-- BR is a jump in both cases: to its target, or to where `pc` is already. -/
theorem exec_br_setPc (nzp : BitVec 3) (off : BitVec 9) (s : State) :
    exec (.br nzp off) s =
      .next (s.setPc (if s.branchTaken nzp = true then s.pc + sext off else s.pc)) := by
  rw [exec_br]
  split <;> rfl

/-- A bit of COND that a mask selects. -/
theorem getLsbD_zext_and {n : Nat} (m : BitVec n) (c : Word) (i : Nat) :
    (zext m &&& c).getLsbD i = (m.getLsbD i && c.getLsbD i) := by
  rw [BitVec.getLsbD_and, zext, BitVec.getLsbD_setWidth]
  by_cases hi : i < 16
  · simp [hi]
  · simp [BitVec.getLsbD_of_ge c i (by omega)]

/-- Under the default COND_ENC, BR is taken exactly when mask and COND have a common bit. -/
theorem branchTaken_default_iff {s : State} (h : s.params.condEnc = defaultCondEnc)
    (nzp : BitVec 3) :
    s.branchTaken nzp = true ↔ ∃ i, nzp.getLsbD i = true ∧ s.cond.getLsbD i = true := by
  rw [State.branchTaken, h, branchMask_default, bne_iff_ne]
  simp only [← Bool.and_eq_true, ← getLsbD_zext_and]
  constructor
  · intro hne
    by_contra hnone
    exact hne (BitVec.eq_of_getLsbD_eq fun i _ => by simpa using not_exists.mp hnone i)
  · rintro ⟨i, hbit⟩ hzero
    simp [hzero] at hbit

/-- Settles O38: a jump whose address is chosen by the common bits of mask and COND. -/
theorem branchResult : Obligations.BranchResult := by
  intro s nzp off
  refine ⟨fun _ ho => decode_br ho nzp off, _, exec_br_setPc nzp off s,
    fun hdefault => ⟨fun hcommon => ?_, fun hnone => ?_⟩, setPc_spec s _⟩
  · rw [if_pos ((branchTaken_default_iff hdefault nzp).mpr hcommon)]
    exact add_sext _ off (by decide)
  · refine if_neg fun htaken => ?_
    obtain ⟨i, hmask, hcond⟩ := (branchTaken_default_iff hdefault nzp).mp htaken
    exact Bool.false_ne_true ((hnone i hmask).symm.trans hcond)

/-! ### Link jumps -/

/-- Everything a link jump changes besides `pc`, and everything it leaves alone. -/
theorem link_jump_spec (s : State) (a : Word) :
    ((s.setReg linkReg s.pc).setPc a).reg 7 = s.pc ∧
      sameRegsBut s ((s.setReg linkReg s.pc).setPc a) [7] ∧
      ((s.setReg linkReg s.pc).setPc a).cond = s.cond ∧
      sameMemory s ((s.setReg linkReg s.pc).setPc a) ∧
      samePorts s ((s.setReg linkReg s.pc).setPc a) ∧
      sameRun s ((s.setReg linkReg s.pc).setPc a) := by
  refine ⟨by simp [linkReg], fun r hr => ?_, rfl, fun _ => rfl, ⟨rfl, rfl, rfl, rfl⟩, rfl, rfl⟩
  rw [State.reg_setPc, State.reg_setReg, if_neg (by simpa [linkReg] using hr)]

theorem exec_jsr (off : BitVec 11) (s : State) :
    exec (.jsr off) s = .next ((s.setReg linkReg s.pc).setPc (s.pc + sext off)) := rfl

/-- Settles O41: a link jump to a sum with a sign-extended field. -/
theorem jumpSubroutineResult : Obligations.JumpSubroutineResult := by
  intro s off
  obtain ⟨hlink, hframe⟩ := link_jump_spec s (s.pc + sext off)
  exact ⟨fun _ ho => decode_jsr ho off, _, exec_jsr off s, hlink, add_sext _ off (by decide),
    hframe⟩

/-- JSRR's target is `pc` itself where the base is R7, read after the link is written, and the old
base register otherwise. -/
theorem exec_jsrr (baseR : RegNum) (s : State) :
    exec (.jsrr baseR) s = .next ((s.setReg linkReg s.pc).setPc
      (if baseR = 7 ∧ s.params.jsrrBaseFirst = false then s.pc else s.reg baseR)) := by
  change execJsrr baseR s = _
  cases horder : s.params.jsrrBaseFirst with
  | true => simp [execJsrr, horder]
  | false => simp [execJsrr, horder, linkReg]

/-- Settles O42: a link jump whose target depends on the order for the base R7 alone. -/
theorem jumpSubroutineRegisterResult : Obligations.JumpSubroutineRegisterResult := by
  intro s baseR
  obtain ⟨hlink, hframe⟩ := link_jump_spec s
    (if baseR = 7 ∧ s.params.jsrrBaseFirst = false then s.pc else s.reg baseR)
  refine ⟨_, exec_jsrr baseR s, hlink, fun hbase => ?_, fun hbase hafter => ?_,
    fun hbase hfirst => ?_, hframe⟩
  · exact if_neg fun h => hbase h.1
  · exact if_pos ⟨hbase, hafter⟩
  · rw [State.setPc_pc, if_neg (by simp [hfirst]), hbase]

end Sys2Proof.Machine
end

section
/-! PROOFS. TRAP and its services (43_trap.md): what the trap entry does to the registers (R148), what a
service that writes bytes leaves alone, the bytes of a string scan (R143, R145), the character that GETC
and IN take (R149), and the dispatch on a vector (R140, R147). -/

namespace Sys2Proof

variable {p : Params}

/-- A vector is undefined where it is none of the six (43_trap.md R140). -/
theorem TrapVectors.isDefined_eq_false_iff (t : TrapVectors) (v : BitVec 8) :
    t.isDefined v = false ↔
      v ≠ t.getc ∧ v ≠ t.out ∧ v ≠ t.puts ∧ v ≠ t.inp ∧ v ≠ t.putsp ∧ v ≠ t.halt := by
  simp only [TrapVectors.isDefined, TrapVectors.toList, List.contains_cons, List.contains_nil,
    Bool.or_false, Bool.or_eq_false_iff, beq_eq_false_iff_ne]

/-- TRAP's opcode value is 15, the one the source fixes (00_scope.md R7). -/
theorem opcodeValue_trap (hp : p.wf = true) : opcodeValue p .trap = 0xF := by
  obtain ⟨-, -, -, hrole⟩ := (opcodesWf_iff _).mp ((Params.wf_iff p).mp hp).1
  have hvalue := opcodeValue_opcodeAt p hp 0xF
  rwa [show opcodeAt p 0xF = .trap from hrole] at hvalue

/-- The generic TRAP's encoding is its Word, ignored bits included (30_encoding.md R66). -/
theorem encode_trap (hp : p.wf = true) (ignored : BitVec 4) (v : BitVec 8) :
    encode p (.trap ignored v) = 0xF#4 ++ ignored ++ v := by
  rw [encode, Instr.opcode, opcodeValue_trap hp]
  exact (BitVec.append_assoc (x₁ := 0xF#4) (x₂ := ignored) (x₃ := v)).symm

end Sys2Proof

namespace Sys2Proof.Machine

variable {s t : State} {c : Byte} {rest : List Byte}

/-! ### What a service leaves alone -/

/-- The trap entry never touches R0, the register of the services' operand. -/
theorem reg_zero_trapEntry (s : State) : (trapEntry s).reg 0 = s.reg 0 :=
  reg_trapEntry_of_ne fun _ => by decide

/-- A service that leaves the registers as its entry did, but for the listed ones, does what R148 says. -/
theorem trapRegs_of_reg {rs : List RegNum} (h7 : 7 ∉ rs)
    (h : ∀ r, r ∉ rs → t.reg r = (trapEntry s).reg r) : trapRegs s t rs := by
  refine ⟨fun hw => ⟨?_, fun r hr => ?_⟩, fun hw r hr => ?_⟩
  · rw [h 7 h7, reg_trapEntry, if_pos ⟨hw, rfl⟩]
  · obtain ⟨hne, hrs⟩ := List.ne_and_not_mem_of_not_mem_cons hr
    rw [h r hrs, reg_trapEntry_of_ne fun _ => hne]
  · rw [h r hr, reg_trapEntry_of_ne (by simp [hw])]

/-- A service that writes bytes only leaves everything else as the trap entry does. -/
theorem service_spec (s : State) (bs : List Byte) :
    trapRegs s ((trapEntry s).emit bs) [] ∧ ((trapEntry s).emit bs).input = s.input ∧
      ((trapEntry s).emit bs).draws = s.draws ∧ ((trapEntry s).emit bs).polls = s.polls ∧
      ((trapEntry s).emit bs).cond = s.cond ∧ ((trapEntry s).emit bs).pc = s.pc ∧
      sameMemory s ((trapEntry s).emit bs) ∧ sameRun s ((trapEntry s).emit bs) :=
  ⟨trapRegs_of_reg (by decide) fun _ _ => rfl, trapEntry_input s, trapEntry_draws s,
    trapEntry_polls s, trapEntry_cond s, trapEntry_pc s, (NoAccess.service s bs).sameMemory,
    trapEntry_run s, trapEntry_params s⟩

/-- The bytes join the output sink. -/
theorem output_service (s : State) (bs : List Byte) :
    ((trapEntry s).emit bs).output = s.output ++ bs := by
  rw [State.emit_output, trapEntry_output]

/-! ### OUT and HALT -/

theorem exec_trapOut (s : State) :
    exec .trapOut s = .next ((trapEntry s).emit [lowByte (s.reg 0)]) := by
  rw [← reg_zero_trapEntry s]
  rfl

theorem exec_trapHalt (s : State) :
    exec .trapHalt s = .next ((trapEntry s).emit s.params.haltNotice).halt := rfl

/-- Settles O44: a service that writes one byte. -/
theorem outResult : Obligations.OutResult := fun s =>
  ⟨_, _, exec_trapOut s, bitField_zero_toNat (s.reg 0) 8, output_service s _, service_spec s _⟩

/-- Settles O48: a service that writes the notice, and then Halted. -/
theorem haltResult : Obligations.HaltResult := by
  intro s
  obtain ⟨hregs, hinput, hdraws, hpolls, hcond, hpc, hmem, -, hparams⟩ :=
    service_spec s s.params.haltNotice
  exact ⟨_, exec_trapHalt s, output_service s _, rfl, hregs, hinput, hdraws, hpolls, hcond, hpc,
    hmem, hparams⟩

/-! ### PUTS and PUTSP -/

theorem exec_trapPuts (s : State) :
    exec .trapPuts s =
      .next ((trapEntry s).emit (scanString putsChars s.mem 65536 (s.reg 0))) := by
  rw [← reg_zero_trapEntry s]
  rfl

theorem exec_trapPutsp (s : State) :
    exec .trapPutsp s =
      .next ((trapEntry s).emit (scanString putspChars s.mem 65536 (s.reg 0))) := by
  rw [← reg_zero_trapEntry s]
  rfl

/-- The fuel of the two services suffices at every address. -/
theorem scanString_full (chars : Word → List Byte) (m : Memory) (a : Word) : ∃ n, IsScan m a n ∧
    scanString chars m 65536 a =
      (List.range n).flatMap (fun k => chars (readWord m (a + BitVec.ofNat 16 k))) :=
  scanString_spec chars m 65536 a (Nat.sub_le _ _)

/-- A Word has a zero high byte exactly where it is below 0x100. -/
theorem highByte_eq_zero_iff (w : Word) : highByte w = 0 ↔ w.toNat < 0x100 := by
  have hhigh : (highByte w).toNat = w.toNat / 2 ^ 8 % 2 ^ 8 := bitField_toNat w 8 8
  have hw := w.isLt
  rw [BitVec.toNat_eq, hhigh, BitVec.ofNat_eq_ofNat, BitVec.toNat_ofNat, Nat.zero_mod]
  omega

/-- PUTSP's bytes of a Word, by the Word's size (43_trap.md R145). -/
theorem putspChars_eq (w : Word) :
    putspChars w = if w.toNat < 0x100 then [lowByte w] else [lowByte w, highByte w] := by
  simp only [putspChars, highByte_eq_zero_iff]
  split <;> rfl

/-- Settles O45: the scan of the Words from R0 on, each giving its low byte. -/
theorem putsResult : Obligations.PutsResult := by
  intro s
  obtain ⟨n, hscan, hbytes⟩ := scanString_full putsChars s.mem (s.reg 0)
  refine ⟨n, _, hscan.inside, hscan.stops, exec_trapPuts s, ?_, service_spec s _⟩
  rw [output_service, hbytes, List.map_eq_flatMap]
  rfl

/-- Settles O47: the scan of the Words from R0 on, each giving one or two bytes. -/
theorem putspResult : Obligations.PutspResult := by
  intro s
  obtain ⟨n, hscan, hbytes⟩ := scanString_full putspChars s.mem (s.reg 0)
  refine ⟨n, _, hscan.inside, hscan.stops, exec_trapPutsp s, ?_, service_spec s _⟩
  simp only [output_service, hbytes, putspChars_eq]
  rfl

/-! ### GETC and IN -/

theorem inGet_cons (h : s.input = c :: rest) : inGet s = some (c, s.setInput rest) := by
  rw [inGet, h]

theorem exec_trapGetc (h : s.input = c :: rest) :
    exec .trapGetc s = .next (((trapEntry s).setInput rest).setReg 0 (zext c)) := by
  change execTrapGetc s = _
  rw [execTrapGetc, inGet_cons ((trapEntry_input s).trans h)]

theorem exec_trapIn (h : s.input = c :: rest) :
    exec .trapIn s = .next
      (((((trapEntry s).emit s.params.inPrompt).setInput rest).emit [c]).writeback 0 (zext c)) := by
  have hinput : ((trapEntry s).emit s.params.inPrompt).input = c :: rest :=
    (trapEntry_input s).trans h
  change execTrapIn s = _
  rw [execTrapIn, inGet_cons hinput]

/-- The flag of a character other than 0 is P: its Word has a zero high byte (10_state.md R27). -/
theorem condFor_zext_of_ne_zero (e : CondEnc) (h : c ≠ 0) : condFor e (zext c) = e.p := by
  have hvalue := toNat_zext c (by decide)
  have hpos : c.toNat ≠ 0 := fun hzero => h (BitVec.eq_of_toNat_eq hzero)
  have hlt := c.isLt
  exact condFor_positive e (by omega) (by omega)

/-- Settles O43: R0 holds the character, and besides the input source nothing else changes. -/
theorem getcResult : Obligations.GetcResult := by
  intro s c rest hinput
  refine ⟨_, exec_trapGetc hinput, ?_, trapRegs_of_reg (by decide) fun r hr => ?_, rfl,
    trapEntry_output s, trapEntry_draws s, trapEntry_polls s, trapEntry_cond s, trapEntry_pc s,
    (NoAccess.trapEntry s).sameMemory, trapEntry_run s, trapEntry_params s⟩
  · rw [State.reg_setReg, if_pos rfl, toNat_zext c (by decide)]
  · rw [State.reg_setReg, if_neg (by simpa using hr), State.reg_setInput]

/-- Settles O46: prompt and echo, and the writeback of the character. -/
theorem inResult : Obligations.InResult := by
  intro s c rest hinput
  refine ⟨_, exec_trapIn hinput, ?_, ?_, trapRegs_of_reg (by decide) fun r hr => ?_,
    fun hzero => ?_, fun hne => ?_, rfl, trapEntry_draws s, trapEntry_polls s, trapEntry_pc s,
    (NoAccess.trapEntry s).sameMemory, trapEntry_run s, trapEntry_params s⟩
  · rw [State.writeback_output, State.emit_output, State.setInput_output, output_service]
  · rw [State.reg_writeback, if_pos rfl, toNat_zext c (by decide)]
  · rw [State.reg_writeback, if_neg (by simpa using hr), State.reg_emit, State.reg_setInput,
      State.reg_emit]
  · simp only [State.writeback_cond, State.emit_params, State.setInput_params, trapEntry_params,
      hzero]
    exact condFor_zero _
  · simp only [State.writeback_cond, State.emit_params, State.setInput_params, trapEntry_params,
      condFor_zext_of_ne_zero _ hne]

/-! ### The generic TRAP -/

/-- With an undefined vector nothing but the policy counts (43_trap.md R147). -/
theorem exec_trap_of_undefined {v : BitVec 8} (hv : s.params.trapVectors.isDefined v = false)
    (ignored : BitVec 4) :
    exec (.trap ignored v) s = if s.params.undefinedTrapPolicy = .nop then .next s
      else raise (.illegalTrap v) (encode s.params (.trap ignored v)) s := by
  obtain ⟨h1, h2, h3, h4, h5, h6⟩ := (TrapVectors.isDefined_eq_false_iff _ v).mp hv
  simp only [exec, execTrap, h1, h2, h3, h4, h5, h6, if_false]
  cases s.params.undefinedTrapPolicy <;> rfl

/-- Settles O50: the same state. -/
theorem undefinedTrapIsNopUnderNop : Obligations.UndefinedTrapIsNopUnderNop :=
  fun _ ignored _ hv hnop => (exec_trap_of_undefined hv ignored).trans (if_pos hnop)

/-- Settles O51: the fault, whose Word is the instruction's encoding. -/
theorem undefinedTrapFaultsUnderFault : Obligations.UndefinedTrapFaultsUnderFault := by
  intro s ignored v hp hv hfault
  rw [exec_trap_of_undefined hv, if_neg (by simp [hfault]), encode_trap hp, raise]

/-- Settles O52: the six vectors differ, so the dispatch finds each one's own service. -/
theorem trapDispatchesOnVector : Obligations.TrapDispatchesOnVector := by
  intro s ignored hp
  have hhalt := ((TrapVectors.wf_iff _).mp ((Params.wf_iff _).mp hp).2.1).2
  have hne := trapVectors_nodup hp
  simp only [List.nodup_cons, List.mem_cons, not_or] at hne
  simp only [← hhalt, exec, execTrap, hne, if_true, if_false, and_self]

end Sys2Proof.Machine
end

section
/-! PROOFS. The stops of the machine (60_exceptions.md): the reserved opcodes (R160), the undefined trap
vector (R161), the character that does not come (R175), and the state and the record they leave
(R164). -/

namespace Sys2Proof

variable {p : Params} {w : Word}

/-! ### The Word a fault records -/

/-- A Word is its opcode value and its other twelve bits (30_encoding.md R62). -/
theorem bitField_append_bitField (w : Word) : bitField w 12 4 ++ bitField w 0 12 = w :=
  (BitVec.extractLsb'_append_extractLsb'_eq_extractLsb' (by rfl)).trans BitVec.extractLsb'_eq_self

/-- An instruction that keeps its Word's low twelve bits is encoded as that Word. -/
theorem encode_decode (hp : p.wf = true) (h : encodeFields p (decode p w) = bitField w 0 12) :
    encode p (decode p w) = w := by
  rw [encode, decode_opcode, opcodeValue_opcodeAt p hp, h, bitField_append_bitField]

/-- A Word with a reserved opcode is kept whole (60_exceptions.md R160). -/
theorem encode_decode_reserved (hp : p.wf = true)
    (h : (decode p w).opcode = .reserved8 ∨ (decode p w).opcode = .reservedD) :
    encode p (decode p w) = w := by
  refine encode_decode hp ?_
  rw [decode_opcode] at h
  rcases h with h | h <;> simp only [decode, h, encodeFields]

/-- The dispatch gives its generic row with the ignored bits and the vector of the Word
(30_encoding.md R78). -/
theorem fields_of_decodeTrap {t : TrapVectors} {ignored : BitVec 4} {v : BitVec 8}
    (h : decodeTrap t w = .trap ignored v) : bitField w 8 4 = ignored ∧ bitField w 0 8 = v := by
  obtain hgeneric | hservice := decodeTrap_cases t w
  · exact Instr.trap.inj (hgeneric.symm.trans h)
  · simp [h] at hservice

/-- TRAP's generic row keeps the Word whole (60_exceptions.md R161). -/
theorem encode_decode_trap (hp : p.wf = true) {ignored : BitVec 4} {v : BitVec 8}
    (h : decode p w = .trap ignored v) : encode p (decode p w) = w := by
  have hrole : opcodeAt p (bitField w 12 4) = .trap := by rw [← decode_opcode, h]; rfl
  have hdispatch : decodeTrap p.trapVectors w = .trap ignored v := by
    rw [← h]
    simp only [decode, hrole]
  obtain ⟨rfl, rfl⟩ := fields_of_decodeTrap hdispatch
  refine encode_decode hp ?_
  rw [h]
  exact BitVec.extractLsb'_append_extractLsb'_eq_extractLsb' (by rfl)

/-- By default the reserved roles have the values 0x8 and 0xD (30_encoding.md R65). -/
theorem opcodeValue_reserved (h : p.opcodes = Machine.defaultOpcodes) :
    opcodeValue p .reserved8 = 0x8 ∧ opcodeValue p .reservedD = 0xD := by
  rw [opcodeValue, opcodeValue, h]
  decide

end Sys2Proof

namespace Sys2Proof.Machine

variable {s : State} {f : Fault} {i : Instr}

/-! ### The stops of an instruction -/

theorem exec_reservedD (x : BitVec 12) (s : State) :
    exec (.reservedD x) s =
      .fault (.illegalOpcode (s.pc - 1) (encode s.params (.reservedD x)) s) := rfl

/-- InGet gives no character exactly where none is pending (43_trap.md R149). -/
theorem inGet_eq_none_iff : inGet s = none ↔ s.input = [] := by
  unfold inGet
  cases s.input <;> simp

/-- GETC holds with nothing done but its entry (60_exceptions.md R175). -/
theorem exec_trapGetc_of_no_input (h : s.input = []) :
    exec .trapGetc s = .fault (.waitingForInput (trapEntry s)) := by
  change execTrapGetc s = _
  rw [execTrapGetc, inGet_eq_none_iff.mpr ((trapEntry_input s).trans h)]

/-- IN holds with its prompt out (43_trap.md R144, 60_exceptions.md R175). -/
theorem exec_trapIn_of_no_input (h : s.input = []) :
    exec .trapIn s = .fault (.waitingForInput ((trapEntry s).emit s.params.inPrompt)) := by
  have hnone : inGet ((trapEntry s).emit s.params.inPrompt) = none :=
    inGet_eq_none_iff.mpr ((trapEntry_input s).trans h)
  change execTrapIn s = _
  rw [execTrapIn, hnone]

/-- The stops of the instruction `i`, `s` being the state after its fetch: what it faults or holds with,
and when (60_exceptions.md R160, R161, R175). -/
inductive Stops (i : Instr) (s : State) : Fault → Prop where
  | illegalOpcode (h : i.opcode = .reserved8 ∨ i.opcode = .reservedD) :
    Stops i s (.illegalOpcode (s.pc - 1) (encode s.params i) s)
  | illegalTrap (ignored : BitVec 4) (v : BitVec 8) (hi : i = .trap ignored v)
    (hv : s.params.trapVectors.isDefined v = false) (hpolicy : s.params.undefinedTrapPolicy = .fault) :
    Stops i s (.illegalTrap v (s.pc - 1) (encode s.params i) s)
  | waitingForInput (t : State) (hi : i = .trapGetc ∨ i = .trapIn) (hinput : s.input = []) :
    Stops i s (.waitingForInput t)

/-- A well-formed instruction that stops has one of these stops. -/
theorem exec_fault (hi : i.wf s.params = true) (h : exec i s = .fault f) : Stops i s f := by
  cases i with
  | reserved8 => cases h; exact .illegalOpcode (.inl rfl)
  | reservedD => cases h; exact .illegalOpcode (.inr rfl)
  | trapGetc =>
    cases hinput : s.input with
    | nil =>
      rw [exec_trapGetc_of_no_input hinput] at h
      cases h
      exact .waitingForInput _ (.inl rfl) hinput
    | cons c rest => rw [exec_trapGetc hinput] at h; cases h
  | trapIn =>
    cases hinput : s.input with
    | nil =>
      rw [exec_trapIn_of_no_input hinput] at h
      cases h
      exact .waitingForInput _ (.inr rfl) hinput
    | cons c rest => rw [exec_trapIn hinput] at h; cases h
  | trap ignored v =>
    have hv : s.params.trapVectors.isDefined v = false := by simpa [Instr.wf] using hi
    rw [exec_trap_of_undefined hv] at h
    cases hpolicy : s.params.undefinedTrapPolicy with
    | nop => rw [if_pos hpolicy] at h; cases h
    | fault =>
      rw [if_neg (by simp [hpolicy])] at h
      cases h
      exact .illegalTrap ignored v rfl hv hpolicy
  | _ => cases h

/-! ### The stops of a step -/

/-- A step that stops was a step of a running machine. -/
theorem step_fault (h : step s = .fault f) :
    s.run = .running ∧ exec (decode s.params (fetch s).1) (fetch s).2 = .fault f := by
  cases hrun : s.run with
  | running => exact ⟨rfl, step_running hrun ▸ h⟩
  | halted => rw [step_halted hrun] at h; cases h

/-- A step that stops has a stop of the decoded instruction, after the fetch. -/
theorem step_stops (h : step s = .fault f) :
    Stops (decode s.params (fetch s).1) (fetch s).2 f := by
  refine exec_fault ?_ (step_fault h).2
  rw [(fetch_kept s).params]
  exact decode_wf _ _

/-- After the fetch the instruction's address is `pc - 1` (60_exceptions.md R164). -/
theorem fetch_pc_sub_one (s : State) : (fetch s).2.pc - 1 = s.pc :=
  BitVec.add_sub_cancel _ _

/-- A step that stops keeps what every instruction keeps. -/
theorem step_fault_kept (h : step s = .fault f) : Kept s f.state := by
  have hends := step_ends (step_fault h).1
  rwa [h] at hends

/-- Settles O9, from what every step keeps. -/
theorem stopKeepsInvariant : Obligations.StopKeepsInvariant :=
  fun _ _ hs h => (step_fault_kept h).inv hs

/-- Settles O13, from the stops of the decoded instruction, whose encoding is then the fetched Word. -/
theorem onlyListedStops : Obligations.OnlyListedStops := by
  intro s f hp h
  have hparams := (fetch_kept s).params
  cases step_stops h with
  | illegalOpcode hrole =>
    rw [fetch_pc_sub_one, hparams, encode_decode_reserved hp hrole]
    exact .inl ⟨rfl, hrole⟩
  | illegalTrap ignored v hi hv hpolicy =>
    rw [fetch_pc_sub_one, hparams, encode_decode_trap hp hi]
    rw [hparams] at hv hpolicy
    exact .inr (.inl ⟨ignored, v, rfl, hi, hv, hpolicy⟩)
  | waitingForInput t hi hinput => exact .inr (.inr ⟨t, rfl, hinput, hi⟩)

/-- Settles O49: besides IN's prompt the held state is the one after the trap entry. -/
theorem inputServicesHoldWithoutInput : Obligations.InputServicesHoldWithoutInput := by
  intro s hinput
  refine ⟨⟨_, exec_trapGetc_of_no_input hinput, trapEntry_output s,
    trapRegs_of_reg (by decide) fun _ _ => rfl, trapEntry_cond s, trapEntry_pc s,
    (NoAccess.trapEntry s).sameMemory, (trapEntry_input s).trans hinput, trapEntry_run s,
    trapEntry_params s⟩, ?_⟩
  obtain ⟨hregs, hport, -, -, hcond, hpc, hmem, hrun⟩ := service_spec s s.params.inPrompt
  exact ⟨_, exec_trapIn_of_no_input hinput, output_service s _, hregs, hcond, hpc, hmem,
    hport.trans hinput, hrun⟩

/-- Settles O53: the Word is the encoding, by its role's value under the default map. -/
theorem reservedOpcodesFault : Obligations.ReservedOpcodesFault := by
  refine ⟨fun s x hmap => ?_, fun s x => ⟨_, _, exec_reserved8 x s, exec_reservedD x s⟩⟩
  obtain ⟨h8, hD⟩ := opcodeValue_reserved hmap
  rw [exec_reserved8, exec_reservedD, encode, encode, Instr.opcode, Instr.opcode, h8, hD]
  exact ⟨rfl, rfl⟩

end Sys2Proof.Machine
end

section
/-! PROOFS. The zero Word as an instruction (70_reset_and_hazards.md R187), what loading an image and a
list of images does (R183 to R186), and the state when the first step begins (R180, R181). -/

namespace Sys2Proof.Machine

/-! ### The zero Word -/

/-- Where opcode 0 is BR's, the zero Word is a BR with the empty mask. -/
theorem decode_zero {p : Params} (h : opcodeAt p 0 = .br) : decode p 0x0000 = .br 0b000 0 :=
  decode_br h 0 0

/-- A BR with the empty mask changes nothing. -/
theorem exec_br_empty (off : BitVec 9) (s : State) : exec (.br 0b000 off) s = .next s := by
  rw [exec_br, branchTaken_empty, if_neg Bool.false_ne_true]

/-- Settles O55: the fetch increments `pc`, and the empty mask selects no flag. -/
theorem zeroWordSlides : Obligations.ZeroWordSlides := by
  intro s hrun hpc hword hopcode
  rw [step_of_pc_ne hrun hpc, hword, decode_zero hopcode, exec_br_empty]
  rfl

/-! ### One image -/

/-- An image with an origin changes memory alone: its payload is placed from the origin on. -/
theorem load_bytes (s : State) (hi lo : Byte) (payload : List Byte) :
    load s (.bytes (hi :: lo :: payload)) =
      .ok { s with mem := placeWords payload (hi.toNat * 256 + lo.toNat) s.mem } := by
  rw [load, toNat_append_add]; rfl

/-- Settles O56, by every Word of memory after placing the payload. -/
theorem loadPlacesTheImage : Obligations.LoadPlacesTheImage := fun s hi lo payload =>
  ⟨_, load_bytes s hi lo payload, readWord_placeWords payload _ s.mem, fun _ _ => rfl, rfl, rfl,
    ⟨rfl, rfl, rfl, rfl⟩, rfl, rfl⟩

/-- A load that succeeds changes memory alone, and keeps its canonical form. -/
theorem load_ok {s t : State} {i : ImageSource} (h : load s i = .ok t) :
    ∃ m : Memory, t = { s with mem := m } ∧ (s.mem.wf → m.wf) := by
  match i with
  | .unopenable | .bytes [] | .bytes [_] => cases h
  | .bytes (_ :: _ :: payload) => cases h; exact ⟨_, rfl, placeWords_wf payload _ s.mem⟩

/-- The streams without an origin are those of fewer than 2 bytes. -/
theorem load_bytes_eq_noOrigin_iff (s : State) (b : List Byte) :
    load s (.bytes b) = .error .noOrigin ↔ b.length < 2 := by
  match b with
  | [] | [_] => exact iff_of_true rfl (by simp)
  | hi :: lo :: payload => rw [load_bytes]; exact iff_of_false nofun (by simp)

/-! ### Lists of images -/

/-- Loading one image is loading the list of it. -/
theorem loadAll_singleton (i : ImageSource) (s : State) : loadAll [i] s = load s i := by
  rw [loadAll]
  cases load s i <;> rfl

/-- Images loaded after a list that loads are loaded into the state it leaves. -/
theorem loadAll_append_of_ok {xs : List ImageSource} {s t : State} (h : loadAll xs s = .ok t)
    (ys : List ImageSource) : loadAll (xs ++ ys) s = loadAll ys t := by
  rw [loadAll_append, h]

/-- A failure is reported whatever images follow. -/
theorem loadAll_append_of_error {xs : List ImageSource} {s : State} {e : LoadError}
    (h : loadAll xs s = .error e) (ys : List ImageSource) : loadAll (xs ++ ys) s = .error e := by
  rw [loadAll_append, h]

/-- Settles O57: the two failures of one image, and a failing list followed by others. -/
theorem loadFailures : Obligations.LoadFailures :=
  ⟨fun _ => rfl, fun s b => (load_bytes_eq_noOrigin_iff s b).symm,
    fun _ _ ys _ _ _ h => loadAll_append_of_error h ys⟩

/-- Settles O58: the last image is loaded into the state the others leave. -/
theorem imagesLoadInOrder : Obligations.ImagesLoadInOrder := by
  intro s t u xs y hxs hy
  rw [loadAll_append_of_ok hxs, loadAll_singleton, hy]

/-- Loading a list of images changes memory alone, and keeps its canonical form. -/
theorem loadAll_ok {xs : List ImageSource} : ∀ {s t : State}, loadAll xs s = .ok t →
    ∃ m : Memory, t = { s with mem := m } ∧ (s.mem.wf → m.wf) := by
  induction xs with
  | nil => rintro s _ ⟨⟩; exact ⟨s.mem, rfl, id⟩
  | cons x xs ih =>
    intro s t h
    rw [loadAll] at h
    cases hx : load s x with
    | error e => rw [hx] at h; cases h
    | ok u =>
      rw [hx] at h
      obtain ⟨m, rfl, hm⟩ := load_ok hx
      obtain ⟨n, rfl, hn⟩ := ih h
      exact ⟨n, rfl, hn ∘ hm⟩

/-! ### The start of a run -/

/-- Settles O59: the state is the one after reset with the host's input, but for its memory. -/
theorem bootState : Obligations.BootState := by
  intro p images input draws s h
  obtain ⟨m, rfl, hm⟩ := loadAll_ok h
  exact ⟨State.reg_resetWith p, rfl, rfl, rfl, rfl, rfl, rfl, hm nil_wf⟩

end Sys2Proof.Machine
end
